-- ==== Sys2Proof/Word.lean ====
section
/-! DEFINITION. The bit-level types of the engine (spec/00_scope.md R5, R8): bytes, 32-bit words, and the
fixed-size byte objects of the data model. A byte string of varying length is a `List Byte`, index 0 first. -/

namespace Sys2Proof

/-- A byte, "a natural number 0..255" (R8). Addition and subtraction wrap at 256 (`+8`, `-8` of R8). -/
abbrev Byte := BitVec 8

/-- A host-visible register or address, 32 bits wide (R6, R8). Addition wraps at 2^32 (`+32` of R8). -/
abbrev Word := BitVec 32

/-- The key digest KEY[0..31] (R5, R21). -/
abbrev Key := Vector Byte 32

/-- One substitution table of 256 bytes (R5, R22); any bytes at all, not necessarily a permutation (R147). -/
abbrev Table := Vector Byte 256

/-- The table set SBOX[0..15][0..255]; table `r` is the table of round `r` (R22). -/
abbrev SBoxSet := Vector Table 16

/-- A working half L[0..3] or R[0..3] (R23). -/
abbrev Half := Vector Byte 4

/-- A block of 8 bytes, the unit of transformation (R180). -/
abbrev Block := Vector Byte 8

/-- An 8-bit value always indexes a 256-entry table. -/
theorem Byte.toNat_lt_256 (b : Byte) : b.toNat < 256 := b.isLt

/-- The all-zero key, `rep(0, 32)`. -/
def Key.zero : Key := Vector.replicate 32 0

/-- The all-zero table set. -/
def SBoxSet.zero : SBoxSet := Vector.replicate 16 (Vector.replicate 256 0)

/-- The all-zero half. -/
def Half.zero : Half := Vector.replicate 4 0

end Sys2Proof
end

