-- ==== Sys2Proof/Config.lean ====
section
/-! DEFINITION. What the platform fixes and what the spec leaves open (spec/00_scope.md R6; spec/92_eei_decisions.md
D3, D4, D8; spec/93_implementation_defined.md U1, U2, U8). A value with no body here is a free value: nothing can be
proved about which value it is. -/

namespace Sys2Proof

/-- The content of the byte at an address after power-on, before the first write to it: "an arbitrary but fixed value
(a parameter of the launch state), not … zero" (R61, U1). Free value, assumption 1. -/
opaque Config.powerOnByte : Nat → Byte

/-- Fresh arbitrary bytes, numbered by the counter `State.freeCount`. The only use: the write footprint of a command
that a reset abandons (R291, U2). Free value, assumption 5. -/
opaque Config.freeByte : Nat → Byte

/-- Where the platform puts the register block; OPEN, "any; unused by the rules" (R6, U8). Free value, assumption 3. -/
opaque Config.regBase : Nat

/-- DESIGN CHOICE (assumption 2). MEM_BYTES is OPEN, any natural number 1 .. 2^32 - 1 (R6). A state carries its own
memory size and no step changes it; this is the size `State.reset` takes, the one the spec's vectors use. -/
def Config.resetMemBytes : Nat := 0x10000

/-- The padding base, ASCII '0' (R5). -/
def Config.padBase : Byte := 0x30

/-- SHUFFLE_LEN = NUM_SBOXES * SBOX_ENTRIES, the length of the shuffle buffer and of the flat table set (R5). -/
def Config.shuffleLen : Nat := 4096

end Sys2Proof
end

