-- ==== Sys2Proof/Machine/State.lean ====
section
/-! DEFINITION. The state of the engine (spec/10_state.md R20 to R43; spec/20_memory.md R60, R61), what the outside
world does to it (spec/00_scope.md R7, spec/30_encoding.md R97), the reasons a step can stop, and the state after
reset. Plain data throughout. -/

namespace Sys2Proof.Machine

/-- The data memory MEM (R60, R61): its size MEM_BYTES and the bytes written since power-on, as (address, byte) pairs
with strictly rising addresses below `size`. An unlisted address holds no written byte; what a read of it gives is
`Mem.byte`'s to say (assumption 1). -/
structure Mem where
  size : Nat
  cells : List Host.Cell
  deriving DecidableEq, Repr

/-- The six error codes the engine writes to STATUS.ERR (R250); codes 6 to 15 are never produced (U5). -/
inductive ErrCode where
  | ok | illcmd | nokey | nosbox | badlen | memx
  deriving DecidableEq, Repr

/-- One action of the host (R7, R97). An offset is a byte offset from REG_BASE; every register access is 32 bits wide
(R32). -/
inductive HostAction where
  /-- `wr`: write a 32-bit value at a register offset -/
  | wr (offset : Nat) (value : Word)
  /-- `rd`: read the register at an offset -/
  | rd (offset : Nat)
  /-- `mset`: store bytes in MEM from an address on -/
  | mset (addr : Nat) (bytes : List Byte)
  /-- `mget`: load `n` bytes of MEM from an address on -/
  | mget (addr n : Nat)
  deriving DecidableEq, Repr

/-- Who moves next (assumption 4): the engine, the host with an action, or the reset input `rst` (R290). -/
inductive Turn where
  | engine
  | host (a : HostAction)
  | rst
  deriving DecidableEq, Repr

/-- What a host read returned. -/
inductive HostReply where
  | word (w : Word)
  | bytes (bs : List Byte)
  deriving DecidableEq, Repr

/-- Reasons a step stops with a fault. No command of the engine raises one: a command's error is an error completion,
a next state (R255, R259). -/
inductive Fault where
  /-- The host accesses a MEM address that names no byte (R60: "an address at or above MEM_BYTES names no byte").
  Raised by `mset` and `mget`. Safe: the machine stops. -/
  | hostAddressAbsent (addr : Nat)
  deriving DecidableEq, Repr

/-- Reasons a step is refused. -/
inductive Refusal where
  /-- A command that has no meaning yet, by its mnemonic. No arm of `exec` uses it. Safe. -/
  | notModelled (mnemonic : String)
  /-- The host accesses MEM while BUSY = 1 (R295, U3: "the model gives a host MEM access no step while BUSY = 1").
  Raised by `mset` and `mget`. Safe. -/
  | hostMemWhileBusy
  /-- A register access that is not 4-byte aligned (R35, U6: "has no defined meaning; a model refuses it").
  Raised by `wr` and `rd`. Safe. -/
  | registerMisaligned (offset : Nat)
  deriving DecidableEq, Repr

/-- The complete state (R20). STATUS and CTRL are held by their fields, each in one home: `statusWord` and `ctrlWord`
(Machine/Flags.lean) give the 32-bit registers the host reads, with the reserved bits 0 (assumption 7). The last three fields are the
model's own: the outside world's pending turns, the replies it has had, and the free-value counter. -/
structure State where
  /-- KEY[0..31], the key digest (R21) -/
  key : Key
  /-- KV, the key-valid flag, also STATUS bit 2 (R21, R27) -/
  kv : Bool
  /-- SBOX[0..15][0..255], the table set (R22) -/
  sbox : SBoxSet
  /-- SBV, the table-valid flag, also STATUS bit 3 (R22, R27) -/
  sbv : Bool
  /-- L[0..3], working half (R23; assumption 8) -/
  l : Half
  /-- R[0..3], working half (R23; assumption 8) -/
  r : Half
  /-- CMD, the last command word accepted (R26) -/
  cmd : Word
  /-- STATUS bit 0, BUSY (R27) -/
  busy : Bool
  /-- STATUS bit 1, DONE (R27) -/
  done : Bool
  /-- STATUS bit 4, PADW (R27) -/
  padw : Bool
  /-- STATUS bit 5, OVR (R27) -/
  ovr : Bool
  /-- STATUS bits 11:8, ERR (R27, R250) -/
  err : ErrCode
  /-- CTRL bit 0, IE (R28) -/
  ie : Bool
  /-- SRC, source address operand (R29) -/
  src : Word
  /-- DST, destination address operand (R29) -/
  dst : Word
  /-- LEN, length operand (R29) -/
  len : Word
  /-- PWA, password address operand (R29) -/
  pwa : Word
  /-- OUTLEN, result length (R30) -/
  outlen : Word
  /-- ERRADDR, faulting address (R31) -/
  errAddr : Word
  /-- MEM, the data memory shared with the host (R60) -/
  mem : Mem
  /-- The turns to come, first one first; when it is empty it is the engine's turn (assumption 4). -/
  agenda : List Turn
  /-- What the host's reads have returned, newest first (assumption 4). -/
  replies : List HostReply
  /-- How many free bytes have been used (assumption 5). -/
  freeCount : Nat
  deriving DecidableEq, Repr

/-- The state while and right after `rst` is asserted, over a given memory: every internal array and every register 0,
the engine idle, MEM unchanged (R43, R290). -/
def State.afterReset (m : Mem) : State where
  key := Key.zero
  kv := false
  sbox := SBoxSet.zero
  sbv := false
  l := Half.zero
  r := Half.zero
  cmd := 0
  busy := false
  done := false
  padw := false
  ovr := false
  err := .ok
  ie := false
  src := 0
  dst := 0
  len := 0
  pwa := 0
  outlen := 0
  errAddr := 0
  mem := m
  agenda := []
  replies := []
  freeCount := 0

/-- The machine right after reset with nothing written to memory. The memory size is assumption 2's; the agenda, the
replies and the free-value counter are the model's own (assumptions 4 and 5). -/
def State.reset : State := State.afterReset ⟨Config.resetMemBytes, []⟩

end Sys2Proof.Machine
end

