-- ==== Sys2Proof/Machine/Ops.lean ====
section
/-! DEFINITION. The named operations of the engine: reading and writing MEM (spec/20_memory.md R60 to R67), the errors
and the two ways a command completes (spec/60_exceptions.md R250 to R255; an error completion is the engine's
"exception"), zeroisation, and the accept of a command word (spec/10_state.md R26). -/

namespace Sys2Proof.Machine

/-! ### MEM -/

/-- The byte listed at an address, if one has been written since power-on. -/
def findCell (a : Nat) : List Host.Cell → Option Byte
  | [] => none
  | (a', b) :: rest => if a = a' then some b else findCell a rest

/-- List a byte at an address, keeping the addresses strictly rising. -/
def putCell (a : Nat) (b : Byte) : List Host.Cell → List Host.Cell
  | [] => [(a, b)]
  | (a', b') :: rest =>
    if a < a' then (a, b) :: (a', b') :: rest
    else if a = a' then (a, b) :: rest
    else (a', b') :: putCell a b rest

/-- What has been written at an address: `none` for an unlisted one. -/
def Mem.get (m : Mem) (a : Nat) : Option Byte := findCell a m.cells

/-- `MEM[a]`: the byte last written, or the power-on value of a byte never written (R61). -/
def Mem.byte (m : Mem) (a : Nat) : Byte := (m.get a).getD (Config.powerOnByte a)

/-- Write one byte; an address at or above MEM_BYTES names no byte and nothing is written (R60). -/
def Mem.writeByte (m : Mem) (a : Nat) (b : Byte) : Mem :=
  if a < m.size then { m with cells := putCell a b m.cells } else m

/-- Addresses strictly rising from `lo` on, all below `size`. -/
def cellsRise (size lo : Nat) : List Host.Cell → Bool
  | [] => true
  | (a, _) :: rest => decide (lo ≤ a) && decide (a < size) && cellsRise size (a + 1) rest

/-- The canonical form: strictly rising addresses, each naming a byte. -/
def Mem.wf (m : Mem) : Bool := cellsRise m.size 0 m.cells

/-- `MemRead(addr, n)`: the `n` bytes at `addr ..`, lowest address first (R64). -/
def memRead (m : Mem) (addr n : Nat) : List Byte := (List.range n).map fun i => m.byte (addr + i)

/-- `MemWrite(addr, n, v)` with `n = len(v)`: `v[0]` at `addr` (R65). -/
def memWrite (m : Mem) (addr : Nat) : List Byte → Mem
  | [] => m
  | b :: rest => memWrite (m.writeByte addr b) (addr + 1) rest

/-! ### Errors -/

/-- What a command can raise (R9, R250); `memx` carries the lowest needed address that names no byte. -/
inductive CmdError where
  | illcmd | nokey | nosbox | badlen
  | memx (bad : Nat)
  deriving DecidableEq, Repr

/-- The error code of R250. -/
def CmdError.code : CmdError → ErrCode
  | .illcmd => .illcmd
  | .nokey => .nokey
  | .nosbox => .nosbox
  | .badlen => .badlen
  | .memx _ => .memx

/-- What ERRADDR records: the address for MEMX, 0 otherwise (R31, R250). -/
def CmdError.addr : CmdError → Word
  | .memx bad => BitVec.ofNat 32 bad
  | _ => 0

/-- The first address of a failing access or scan from `addr` on that names no byte (R66, R67). -/
def Mem.firstAbsent (m : Mem) (addr : Nat) : Nat := if m.size ≤ addr then addr else m.size

/-- `CheckRange(addr, n)` (R66). -/
def checkRange (m : Mem) (addr n : Nat) : Except CmdError Unit :=
  if n = 0 ∨ addr + n ≤ m.size then .ok () else .error (.memx (m.firstAbsent addr))

/-- The bytes from `a` up to the first zero byte, looking at `fuel` bytes; `none` when there is no zero byte. -/
def scanBytes (m : Mem) : Nat → Nat → Option (List Byte)
  | 0, _ => none
  | fuel + 1, a =>
    if m.byte a = 0 then some [] else (scanBytes m fuel (a + 1)).map (m.byte a :: ·)

/-- `ScanZ(addr)`: the zero-terminated string at `addr`, without its terminator (R67). -/
def scanZ (m : Mem) (addr : Nat) : Except CmdError (List Byte) :=
  match scanBytes m (m.size - addr) addr with
  | some bs => .ok bs
  | none => .error (.memx (m.firstAbsent addr))

/-! ### Completion -/

/-- What a command that raises nothing hands to its completion step: the new KEY, KV, SBOX and SBV, its one `MemWrite`
("at most one `MemWrite` per command, after all reads", R70), and the arguments of `complete`. -/
structure Effect where
  key : Key
  kv : Bool
  sbox : SBoxSet
  sbv : Bool
  storeAddr : Nat
  storeBytes : List Byte
  outlen : Nat
  padw : Bool
  deriving DecidableEq, Repr

/-- The effect that changes nothing, with `complete(0, 0)`. -/
def Effect.none (s : State) : Effect where
  key := s.key
  kv := s.kv
  sbox := s.sbox
  sbv := s.sbv
  storeAddr := 0
  storeBytes := []
  outlen := 0
  padw := false

/-- Zeroise KEY and SBOX and clear KV and SBV (R12, R222, R226). -/
def Effect.zeroised (e : Effect) : Effect :=
  { e with key := Key.zero, kv := false, sbox := SBoxSet.zero, sbv := false }

/-- Zeroise KEY and SBOX and clear KV and SBV, in the state (R222). -/
def State.zeroised (s : State) : State :=
  { s with key := Key.zero, kv := false, sbox := SBoxSet.zero, sbv := false }

/-- Normal completion: the command's own writes, then `complete(outlen, padw)` (R254). -/
def complete (s : State) (e : Effect) : State :=
  { s with
    key := e.key
    kv := e.kv
    sbox := e.sbox
    sbv := e.sbv
    mem := memWrite s.mem e.storeAddr e.storeBytes
    err := .ok
    padw := e.padw
    outlen := BitVec.ofNat 32 e.outlen
    errAddr := 0
    l := Half.zero
    r := Half.zero
    busy := false
    done := true }

/-- Error completion, `raise E(info)` (R255): the engine's exception. Nothing is saved but the code and the address;
KEY, SBOX, KV, SBV and MEM stay as they are in `s`, and the engine is idle again. The return from it is the host's next
write to CMD (R257, R259); there is no return command. -/
def raise (s : State) (e : CmdError) : State :=
  { s with
    err := e.code
    padw := false
    outlen := 0
    errAddr := e.addr
    l := Half.zero
    r := Half.zero
    busy := false
    done := true }

/-- The completion step of a command: normal, or with an error that leaves the arrays as they were (R254, R255). -/
def finish (s : State) : Except CmdError Effect → State
  | .ok e => complete s e
  | .error err => raise s err

/-- The completion step of ENC and DEC: an error zeroises KEY and SBOX all the same (R222, R255). -/
def finishZeroising (s : State) : Except CmdError Effect → State
  | .ok e => complete s e
  | .error err => raise s.zeroised err

/-! ### Accept -/

/-- The accept of a command word, a host write to CMD while idle (R26): "and nothing else changes". -/
def accept (s : State) (w : Word) : State := { s with cmd := w, busy := true, done := false }

end Sys2Proof.Machine
end

