-- ==== Sys2Proof/Machine/Operands.lean ====
section
/-! DEFINITION. Operands: the operand registers as addresses and counts (spec/30_encoding.md R94), and the byte objects
a command moves between MEM and the engine (spec/20_memory.md R62). -/

namespace Sys2Proof.Machine

/-- "Every other operand is the full 32-bit unsigned value of an operand register, used as a byte address (SRC, DST,
PWA) or a byte count (LEN) with no scaling, no offset and no extension" (R94). -/
def operand (reg : Word) : Nat := reg.toNat

/-- The fixed-size object made of the first `n` bytes of a byte string, index 0 first (R62). -/
def bytesAt (n : Nat) (bs : List Byte) (off : Nat) : Vector Byte n :=
  Vector.ofFn fun i => bs.getD (off + i.val) 0

/-- The fixed-size object held by a byte string of its length. -/
def ofBytes (n : Nat) (bs : List Byte) : Vector Byte n := bytesAt n bs 0

/-- The k-th block of a multi-block buffer, at offset 8*k (R62). -/
def blockAt (bs : List Byte) (k : Nat) : Block := bytesAt 8 bs (8 * k)

/-- `L = B[0..3]` (R180). -/
def leftHalf (b : Block) : Half := Vector.ofFn fun i => b[i.val]

/-- `R = B[4..7]` (R180). -/
def rightHalf (b : Block) : Half := Vector.ofFn fun i => b[4 + i.val]

/-- `B = L ‖ R`, "L first, R second" (R180). -/
def joinHalves (l r : Half) : Block := l ++ r

/-- Byte-wise `xor` of two halves (R180). -/
def xorHalf (x y : Half) : Half := Vector.ofFn fun i => x[i] ^^^ y[i]

/-- The table set of a flat string of 4096 bytes: `O[256*r + i]` is entry `i` of table `r` (R22, R148). -/
def tablesOf (flat : List Byte) : SBoxSet := Vector.ofFn fun r => bytesAt 256 flat (256 * r.val)

/-- The flat view of a table set: `SB[256*r + i] = SBOX[r][i]` (R22). -/
def flatOf (ss : SBoxSet) : List Byte := ss.toList.flatMap Vector.toList

end Sys2Proof.Machine
end

