-- ==== Sys2Proof/Machine/Flags.lean ====
section
/-! DEFINITION. Flags: the 32-bit views of STATUS and CTRL and the effect of host writes to them (spec/10_state.md R27,
R28), the guards on KV and SBV, the length guard, and the interrupt output (spec/60_exceptions.md R250, R262). -/

namespace Sys2Proof.Machine

/-- The code written to STATUS.ERR (R250). -/
def ErrCode.bits : ErrCode → BitVec 4
  | .ok => 0
  | .illcmd => 1
  | .nokey => 2
  | .nosbox => 3
  | .badlen => 4
  | .memx => 5

/-- STATUS as the host reads it (R27): ERR in 11:8, OVR, PADW, SBV, KV, DONE, BUSY in 5:0, the reserved bits 0. -/
def statusWord (s : State) : Word :=
  (0#20 ++ s.err.bits ++ 0#2) ++ BitVec.ofBool s.ovr ++ BitVec.ofBool s.padw ++ BitVec.ofBool s.sbv
    ++ BitVec.ofBool s.kv ++ BitVec.ofBool s.done ++ BitVec.ofBool s.busy

/-- A host write to STATUS "changes only DONE and OVR": a 1 clears the bit (R27). -/
def writeStatus (s : State) (v : Word) : State :=
  { s with done := s.done && !v.getLsbD 1, ovr := s.ovr && !v.getLsbD 5 }

/-- CTRL as the host reads it: bit 0 is IE, bits 31:1 read as 0 (R28). -/
def ctrlWord (s : State) : Word := 0#31 ++ BitVec.ofBool s.ie

/-- A host write to CTRL: bit 0 only (R28). -/
def writeCtrl (s : State) (v : Word) : State := { s with ie := v.getLsbD 0 }

/-- The interrupt output, `irq = STATUS.DONE and CTRL.IE` (R262; assumption 13). -/
def irq (s : State) : Bool := s.done && s.ie

/-- `if KV = 0: raise NOKEY` (R150). -/
def needKey (s : State) : Except CmdError Unit := if s.kv then .ok () else .error .nokey

/-- `if SBV = 0: raise NOSBOX` (R153, R171, R183, R184). -/
def needTables (s : State) : Except CmdError Unit := if s.sbv then .ok () else .error .nosbox

/-- `if LEN = 0 or LEN mod 8 != 0: raise BADLEN` (R203, R223). -/
def needBlocks (n : Nat) : Except CmdError Unit := if n = 0 ∨ n % 8 ≠ 0 then .error .badlen else .ok ()

end Sys2Proof.Machine
end

