-- ==== Sys2Proof/Machine/KeyDerivation.lean ====
section
/-! DEFINITION. Key derivation (spec/40_key_derivation.md): SHA-256 as R111 to R117 write it out, `DeriveKey`, and the
commands KDF and LDKEY. -/

namespace Sys2Proof.Machine

/-! ### The word functions (R115) -/

def shaCh (x y z : Word) : Word := (x &&& y) ^^^ (~~~x &&& z)

def shaMaj (x y z : Word) : Word := (x &&& y) ^^^ (x &&& z) ^^^ (y &&& z)

def shaBSig0 (x : Word) : Word := x.rotateRight 2 ^^^ x.rotateRight 13 ^^^ x.rotateRight 22

def shaBSig1 (x : Word) : Word := x.rotateRight 6 ^^^ x.rotateRight 11 ^^^ x.rotateRight 25

def shaSSig0 (x : Word) : Word := x.rotateRight 7 ^^^ x.rotateRight 18 ^^^ (x >>> 3)

def shaSSig1 (x : Word) : Word := x.rotateRight 17 ^^^ x.rotateRight 19 ^^^ (x >>> 10)

/-- The round constants K[0..63] (R114), eight per line. -/
def shaK : List Word :=
  [0x428a2f98, 0x71374491, 0xb5c0fbcf, 0xe9b5dba5, 0x3956c25b, 0x59f111f1, 0x923f82a4, 0xab1c5ed5]
  ++ [0xd807aa98, 0x12835b01, 0x243185be, 0x550c7dc3, 0x72be5d74, 0x80deb1fe, 0x9bdc06a7, 0xc19bf174]
  ++ [0xe49b69c1, 0xefbe4786, 0x0fc19dc6, 0x240ca1cc, 0x2de92c6f, 0x4a7484aa, 0x5cb0a9dc, 0x76f988da]
  ++ [0x983e5152, 0xa831c66d, 0xb00327c8, 0xbf597fc7, 0xc6e00bf3, 0xd5a79147, 0x06ca6351, 0x14292967]
  ++ [0x27b70a85, 0x2e1b2138, 0x4d2c6dfc, 0x53380d13, 0x650a7354, 0x766a0abb, 0x81c2c92e, 0x92722c85]
  ++ [0xa2bfe8a1, 0xa81a664b, 0xc24b8b70, 0xc76c51a3, 0xd192e819, 0xd6990624, 0xf40e3585, 0x106aa070]
  ++ [0x19a4c116, 0x1e376c08, 0x2748774c, 0x34b0bcb5, 0x391c0cb3, 0x4ed8aa4a, 0x5b9cca4f, 0x682e6ff3]
  ++ [0x748f82ee, 0x78a5636f, 0x84c87814, 0x8cc70208, 0x90befffa, 0xa4506ceb, 0xbef9a3f7, 0xc67178f2]

/-- The chaining value H[0..7], and the working variables a .. h of a compression (R113, R116). -/
structure ShaState where
  a : Word
  b : Word
  c : Word
  d : Word
  e : Word
  f : Word
  g : Word
  h : Word
  deriving DecidableEq, Repr

/-- The initial chaining value (R113). -/
def shaInit : ShaState :=
  ⟨0x6a09e667, 0xbb67ae85, 0x3c6ef372, 0xa54ff53a, 0x510e527f, 0x9b05688c, 0x1f83d9ab, 0x5be0cd19⟩

/-- The number of zero bytes of the padding: the least `z` with `(l + 1 + z) mod 64 = 56` (R112). -/
def shaZeros (l : Nat) : Nat := (119 - l % 64) % 64

/-- The 8-byte big-endian encoding of the bit length `8 * l` (R112). -/
def shaLength (l : Nat) : List Byte :=
  (List.range 8).map fun i => BitVec.ofNat 8 (8 * l / 256 ^ (7 - i))

/-- The padded message `M ‖ 0x80 ‖ rep(0x00, z) ‖ len64` (R112). -/
def shaPad (msg : List Byte) : List Byte :=
  msg ++ 0x80 :: List.replicate (shaZeros msg.length) 0 ++ shaLength msg.length

/-- The big-endian word of four bytes from offset `i` of a block (R112). -/
def shaWordAt (block : List Byte) (i : Nat) : Word :=
  block.getD i 0 ++ block.getD (i + 1) 0 ++ block.getD (i + 2) 0 ++ block.getD (i + 3) 0

/-- `n` more words of the message schedule, newest first: `W[t]` from `W[t-2]`, `W[t-7]`, `W[t-15]`, `W[t-16]`
(R116). -/
def shaExtend : Nat → List Word → List Word
  | 0, ws => ws
  | n + 1, ws =>
    shaExtend n
      ((shaSSig1 (ws.getD 1 0) + ws.getD 6 0 + shaSSig0 (ws.getD 14 0) + ws.getD 15 0) :: ws)

/-- The message schedule `W[0..63]` of a 64-byte block (R112, R116). -/
def shaSchedule (block : List Byte) : List Word :=
  (shaExtend 48 ((List.range 16).map fun t => shaWordAt block (4 * t)).reverse).reverse

/-- One round of the compression, with `K[t]` and `W[t]` (R116). -/
def shaRound (v : ShaState) (kw : Word × Word) : ShaState :=
  let t1 := v.h + shaBSig1 v.e + shaCh v.e v.f v.g + kw.1 + kw.2
  let t2 := shaBSig0 v.a + shaMaj v.a v.b v.c
  ⟨t1 + t2, v.a, v.b, v.c, v.d + t1, v.e, v.f, v.g⟩

/-- Word by word addition of the working variables to the chaining value (R116). -/
def shaAdd (x y : ShaState) : ShaState :=
  ⟨x.a + y.a, x.b + y.b, x.c + y.c, x.d + y.d, x.e + y.e, x.f + y.f, x.g + y.g, x.h + y.h⟩

/-- The compression of one block into the chaining value (R116). -/
def shaCompress (hv : ShaState) (block : List Byte) : ShaState :=
  shaAdd hv ((shaK.zip (shaSchedule block)).foldl shaRound hv)

/-- The compression over `n` 64-byte blocks in order (R116). -/
def shaBlocks : Nat → ShaState → List Byte → ShaState
  | 0, hv, _ => hv
  | n + 1, hv, bs => shaBlocks n (shaCompress hv (bs.take 64)) (bs.drop 64)

/-- The big-endian bytes of a word (R117). -/
def wordBytes (w : Word) : List Byte :=
  [w.extractLsb' 24 8, w.extractLsb' 16 8, w.extractLsb' 8 8, w.extractLsb' 0 8]

/-- The 32-byte digest of a chaining value (R117). -/
def shaDigest (v : ShaState) : List Byte :=
  wordBytes v.a ++ wordBytes v.b ++ wordBytes v.c ++ wordBytes v.d
    ++ wordBytes v.e ++ wordBytes v.f ++ wordBytes v.g ++ wordBytes v.h

/-- `SHA256(M)` (R111). -/
def sha256 (msg : List Byte) : List Byte :=
  shaDigest (shaBlocks ((shaPad msg).length / 64) shaInit (shaPad msg))

/-- `DeriveKey(pw) = SHA256(pw)`, with `KEY[i] = d[i]` (R110, R117). -/
def deriveKey (pw : List Byte) : Key := ofBytes 32 (sha256 pw)

/-! ### KDF and LDKEY -/

/-- The pseudocode of KDF (R121). -/
def effectKdf (s : State) : Except CmdError Effect := do
  let pw ← scanZ s.mem (operand s.pwa)
  .ok { Effect.none s with key := deriveKey pw, kv := true }

/-- KDF: derive the key digest from the password in memory and hold it in KEY (R121). -/
def execKdf (s : State) : Host.Outcome State Fault Refusal := .next (finish s (effectKdf s))

/-- The pseudocode of LDKEY (R122). -/
def effectLdkey (s : State) : Except CmdError Effect := do
  checkRange s.mem (operand s.src) 32
  .ok { Effect.none s with key := ofBytes 32 (memRead s.mem (operand s.src) 32), kv := true }

/-- LDKEY: load a 32-byte key digest from memory into KEY (R122). -/
def execLdkey (s : State) : Host.Outcome State Fault Refusal := .next (finish s (effectLdkey s))

end Sys2Proof.Machine
end

