-- ==== Sys2Proof/Machine/SBoxGenerator.lean ====
section
/-! DEFINITION. The S-box generator (spec/41_sbox_generator.md): the base permutation, the replication, the round-robin
shuffle and the split, and the commands SBGEN, GENSB, LDSB and STSB. The generated tables are not permutations
(spec/90_conflicts.md C1). -/

namespace Sys2Proof.Machine

/-- The identity table, "entry i = i" (R141). -/
def identityTable : Table := Vector.ofFn fun i => BitVec.ofNat 8 i.val

/-- The swap of step `i`: positions `i` and `j = (i + key[i mod 32]) mod 256` (R141). -/
def swapStep (key : Key) (p : Table) (i : Fin 256) : Table :=
  p.swap i.val ((i.val + key[i.val % 32].toNat) % 256)

/-- `BasePermutation(key)`: 256 swaps from the identity, i = 0 .. 255 in this order (R141). -/
def basePermutation (key : Key) : Table := (List.finRange 256).foldl (swapStep key) identityTable

/-- `Replicate(P)`: 16 copies, 4096 entries (R143). -/
def replicateTable (p : Table) : List Byte :=
  (List.range Config.shuffleLen).map fun k => p.toList.getD (k % 256) 0

/-- The placements of the shuffle: each source element in order goes to position `cursor` of the output; the cursor
then advances by `shift`, and the shift by one, wrapping to 1 at the buffer length `n` (R144). -/
def placeAll (n : Nat) : List Byte → List Byte → Nat → Nat → List Byte
  | [], out, _, _ => out
  | b :: rest, out, cursor, shift =>
    placeAll n rest (out.set cursor b) ((cursor + shift) % n) (if shift + 1 = n then 1 else shift + 1)

/-- `RoundRobinShuffle(S)` with `N = len(S)`, from cursor 0 and shift 1 (R144). The output buffer's first content does
not survive: every position is written (R145). -/
def roundRobinShuffle (src : List Byte) : List Byte :=
  placeAll src.length src (List.replicate src.length 0) 0 1

/-- `GenerateSBoxSet(key)` (R140); `Split` is `tablesOf` (R148). -/
def generateSBoxSet (key : Key) : SBoxSet :=
  tablesOf (roundRobinShuffle (replicateTable (basePermutation key)))

/-! ### SBGEN, GENSB, LDSB, STSB -/

/-- The pseudocode of SBGEN (R150). -/
def effectSbgen (s : State) : Except CmdError Effect := do
  needKey s
  .ok { Effect.none s with key := Key.zero, kv := false, sbox := generateSBoxSet s.key, sbv := true }

/-- SBGEN: generate the table set from KEY, and zeroise KEY (R150). -/
def execSbgen (s : State) : Host.Outcome State Fault Refusal := .next (finish s (effectSbgen s))

/-- The pseudocode of GENSB (R151). -/
def effectGensb (s : State) : Except CmdError Effect := do
  let pw ← scanZ s.mem (operand s.pwa)
  .ok { Effect.none s with
        key := Key.zero, kv := false, sbox := generateSBoxSet (deriveKey pw), sbv := true }

/-- GENSB: derive the key from the password and generate the table set (R151). -/
def execGensb (s : State) : Host.Outcome State Fault Refusal := .next (finish s (effectGensb s))

/-- The pseudocode of LDSB (R152). -/
def effectLdsb (s : State) : Except CmdError Effect := do
  checkRange s.mem (operand s.src) 4096
  .ok { Effect.none s with sbox := tablesOf (memRead s.mem (operand s.src) 4096), sbv := true }

/-- LDSB: load an arbitrary table set from memory (R152). -/
def execLdsb (s : State) : Host.Outcome State Fault Refusal := .next (finish s (effectLdsb s))

/-- The pseudocode of STSB (R153). -/
def effectStsb (s : State) : Except CmdError Effect := do
  needTables s
  checkRange s.mem (operand s.dst) 4096
  .ok { Effect.none s with storeAddr := operand s.dst, storeBytes := flatOf s.sbox }

/-- STSB: store the table set to memory (R153). -/
def execStsb (s : State) : Host.Outcome State Fault Refusal := .next (finish s (effectStsb s))

end Sys2Proof.Machine
end

