-- ==== Sys2Proof/Machine/RoundFunction.lean ====
section
/-! DEFINITION. The round function (spec/42_round_function.md R170) and the command RNDF (R171). -/

namespace Sys2Proof.Machine

/-- `RoundFunction(in, S)` (R170): the index is chained, not the looked-up value, and the input bytes are taken in the
order 3, 2, 1, 0. -/
def roundFunction (inp : Half) (t : Table) : Half :=
  let idx0 := inp[3]
  let idx1 := idx0 + inp[2]
  let idx2 := idx1 + inp[1]
  let idx3 := idx2 + inp[0]
  #v[t[idx0.toNat]'idx0.toNat_lt_256, t[idx1.toNat]'idx1.toNat_lt_256,
     t[idx2.toNat]'idx2.toNat_lt_256, t[idx3.toNat]'idx3.toNat_lt_256]

/-- The pseudocode of RNDF (R171). -/
def effectRndf (rnd : BitVec 4) (s : State) : Except CmdError Effect := do
  needTables s
  checkRange s.mem (operand s.src) 4
  checkRange s.mem (operand s.dst) 4
  let inp := ofBytes 4 (memRead s.mem (operand s.src) 4)
  .ok { Effect.none s with
        storeAddr := operand s.dst, storeBytes := (roundFunction inp (s.sbox[rnd.toNat]'rnd.isLt)).toList }

/-- RNDF rnd: apply the round function once, with table `SBOX[rnd]` (R171). -/
def execRndf (rnd : BitVec 4) (s : State) : Host.Outcome State Fault Refusal :=
  .next (finish s (effectRndf rnd s))

end Sys2Proof.Machine
end

