-- ==== Sys2Proof/Machine/FeistelNetwork.lean ====
section
/-! DEFINITION. The 16-round Feistel network (spec/43_feistel_network.md R180 to R186), forward and inverse, and the
commands FWD and INV. There is no final swap, no initial or final permutation and no whitening (R186). -/

namespace Sys2Proof.Machine

/-- Forward round `r` on the pair (L, R): `L ← R`, `R ← L xor RoundFunction(R, SS[r])` (R181). -/
def forwardRound (ss : SBoxSet) (lr : Half × Half) (r : Fin 16) : Half × Half :=
  (lr.2, xorHalf lr.1 (roundFunction lr.2 ss[r]))

/-- Inverse round `r` on the pair (L, R): `R ← L`, `L ← R xor RoundFunction(L, SS[r])` (R182). -/
def inverseRound (ss : SBoxSet) (lr : Half × Half) (r : Fin 16) : Half × Half :=
  (xorHalf lr.2 (roundFunction lr.1 ss[r]), lr.1)

/-- The two halves of a block (R180). -/
def splitBlock (b : Block) : Half × Half := (leftHalf b, rightHalf b)

/-- The block of two halves (R180). -/
def joinBlock (lr : Half × Half) : Block := joinHalves lr.1 lr.2

/-- `Forward(B, SS)`: rounds 0 to 15 (R181). -/
def forward (b : Block) (ss : SBoxSet) : Block :=
  joinBlock ((List.finRange 16).foldl (forwardRound ss) (splitBlock b))

/-- `Inverse(B, SS)`: rounds 15 down to 0 (R182). -/
def inverse (b : Block) (ss : SBoxSet) : Block :=
  joinBlock ((List.finRange 16).reverse.foldl (inverseRound ss) (splitBlock b))

/-- The pseudocode FWD and INV share: one block from SRC through `f` to DST (R183, R184). -/
def effectBlock (f : Block → SBoxSet → Block) (s : State) : Except CmdError Effect := do
  needTables s
  checkRange s.mem (operand s.src) 8
  checkRange s.mem (operand s.dst) 8
  let b := ofBytes 8 (memRead s.mem (operand s.src) 8)
  .ok { Effect.none s with storeAddr := operand s.dst, storeBytes := (f b s.sbox).toList }

/-- The pseudocode of FWD (R183). -/
def effectFwd (s : State) : Except CmdError Effect := effectBlock forward s

/-- FWD: transform the block at SRC with `Forward` under SBOX and store it at DST (R183). -/
def execFwd (s : State) : Host.Outcome State Fault Refusal := .next (finish s (effectFwd s))

/-- The pseudocode of INV (R184). -/
def effectInv (s : State) : Except CmdError Effect := effectBlock inverse s

/-- INV: transform the block at SRC with `Inverse` under SBOX and store it at DST (R184). -/
def execInv (s : State) : Host.Outcome State Fault Refusal := .next (finish s (effectInv s))

end Sys2Proof.Machine
end

