-- ==== Sys2Proof/Machine/PaddingCodec.lean ====
section
/-! DEFINITION. The padding codec (spec/44_padding_codec.md R200, R201) and the commands PAD and UNPAD. The pad bytes are
the ASCII digits '1' to '8', not PKCS#7's counts (spec/90_conflicts.md C2). -/

namespace Sys2Proof.Machine

/-- `padding_bytes = 8 - (n mod 8)`, a value 1..8 (R200). -/
def padLen (n : Nat) : Nat := 8 - n % 8

/-- `AddPadding(x)` (R200). -/
def addPadding (x : List Byte) : List Byte :=
  x ++ List.replicate (padLen x.length) (Config.padBase + BitVec.ofNat 8 (padLen x.length))

/-- `RemovePaddingLen(y)`: the new length and the warning (R201). The candidate is an unsigned 8-bit difference. -/
def removePaddingLen (y : List Byte) : Nat × Bool :=
  let c := y.getLastD 0 - Config.padBase
  if 8 < c.toNat then (y.length, true) else (y.length - c.toNat, false)

/-- The pseudocode of PAD (R202). -/
def effectPad (s : State) : Except CmdError Effect := do
  let n := operand s.len
  checkRange s.mem (operand s.src) n
  checkRange s.mem (operand s.dst) (n + padLen n)
  .ok { Effect.none s with
        storeAddr := operand s.dst
        storeBytes := addPadding (memRead s.mem (operand s.src) n)
        outlen := n + padLen n }

/-- PAD: copy LEN bytes from SRC to DST and append the padding (R202). -/
def execPad (s : State) : Host.Outcome State Fault Refusal := .next (finish s (effectPad s))

/-- The pseudocode of UNPAD (R203). -/
def effectUnpad (s : State) : Except CmdError Effect := do
  let n := operand s.len
  needBlocks n
  checkRange s.mem (operand s.src) n
  let (newlen, warn) := removePaddingLen (memRead s.mem (operand s.src) n)
  .ok { Effect.none s with outlen := newlen, padw := warn }

/-- UNPAD: the unpadded length of the LEN bytes at SRC (R203). -/
def execUnpad (s : State) : Host.Outcome State Fault Refusal := .next (finish s (effectUnpad s))

end Sys2Proof.Machine
end

