-- ==== Sys2Proof/Machine/CipherEngine.lean ====
section
/-! DEFINITION. The cipher engine (spec/45_cipher_engine.md R220 to R227): `Encrypt`, `Decrypt`, and the commands ENC,
DEC, ZERO and NOP. Blocks are transformed independently, in order (R304). -/

namespace Sys2Proof.Machine

/-- Every 8-byte block of a byte string through `f`, concatenated in order (R220, R224). -/
def mapBlocks (f : Block → Block) (bs : List Byte) : List Byte :=
  (List.range (bs.length / 8)).flatMap fun k => (f (blockAt bs k)).toList

/-- `Encrypt(pt, pw)` (R220). -/
def encrypt (pt pw : List Byte) : List Byte :=
  let ss := generateSBoxSet (deriveKey pw)
  mapBlocks (fun b => forward b ss) (addPadding pt)

/-- `Decrypt(ct, pw)`: the plaintext and the padding warning (R224). -/
def decrypt (ct pw : List Byte) : List Byte × Bool :=
  let ss := generateSBoxSet (deriveKey pw)
  let pp := mapBlocks (fun b => inverse b ss) ct
  let (newlen, warn) := removePaddingLen pp
  (pp.take newlen, warn)

/-- The pseudocode of ENC (R221), less the zeroisation on an error, which `finishZeroising` does. -/
def effectEnc (s : State) : Except CmdError Effect := do
  let pt ← scanZ s.mem (operand s.src)
  let pw ← scanZ s.mem (operand s.pwa)
  let n := pt.length
  checkRange s.mem (operand s.dst) (n + padLen n)
  .ok { (Effect.none s).zeroised with
        storeAddr := operand s.dst
        storeBytes := encrypt pt pw
        outlen := n + padLen n }

/-- ENC: the document's `encrypt(plaintext, password)` (R221). -/
def execEnc (s : State) : Host.Outcome State Fault Refusal := .next (finishZeroising s (effectEnc s))

/-- The pseudocode of DEC (R223), less the zeroisation on an error, which `finishZeroising` does. -/
def effectDec (s : State) : Except CmdError Effect := do
  let n := operand s.len
  needBlocks n
  let pw ← scanZ s.mem (operand s.pwa)
  checkRange s.mem (operand s.src) n
  let ct := memRead s.mem (operand s.src) n
  let (pt, warn) := decrypt ct pw
  checkRange s.mem (operand s.dst) pt.length
  .ok { (Effect.none s).zeroised with
        storeAddr := operand s.dst
        storeBytes := pt
        outlen := pt.length
        padw := warn }

/-- DEC: the document's `decrypt(ciphertext, length, password)` (R223). -/
def execDec (s : State) : Host.Outcome State Fault Refusal := .next (finishZeroising s (effectDec s))

/-- The pseudocode of ZERO (R226). -/
def effectZero (s : State) : Except CmdError Effect := .ok (Effect.none s).zeroised

/-- ZERO: zeroise the secrets the engine holds (R226). -/
def execZero (s : State) : Host.Outcome State Fault Refusal := .next (finish s (effectZero s))

/-- The pseudocode of NOP (R227). -/
def effectNop (s : State) : Except CmdError Effect := .ok (Effect.none s)

/-- NOP: do nothing and complete (R227). -/
def execNop (s : State) : Host.Outcome State Fault Refusal := .next (finish s (effectNop s))

end Sys2Proof.Machine
end

