-- ==== Sys2Proof/Syntax.lean ====
section
/-! DEFINITION. The command set FCE-1 as syntax (spec/30_encoding.md R90 to R92): the fifteen commands, and the three
fields of a command word. -/

namespace Sys2Proof

/-- The fifteen commands of R92, in opcode order. All operands but RNDF's round index come from the operand registers
SRC, DST, LEN and PWA (R91). -/
inductive Instr where
  /-- 0x00 NOP (R227) -/
  | nop
  /-- 0x01 KDF (R121) -/
  | kdf
  /-- 0x02 LDKEY (R122) -/
  | ldkey
  /-- 0x03 SBGEN (R150) -/
  | sbgen
  /-- 0x04 GENSB (R151) -/
  | gensb
  /-- 0x05 LDSB (R152) -/
  | ldsb
  /-- 0x06 STSB (R153) -/
  | stsb
  /-- 0x07 RNDF rnd, the only format-R command: `rnd` is word bits 11:8, 0..15 (R94, R171) -/
  | rndf (rnd : BitVec 4)
  /-- 0x08 FWD (R183) -/
  | fwd
  /-- 0x09 INV (R184) -/
  | inv
  /-- 0x0A PAD (R202) -/
  | pad
  /-- 0x0B UNPAD (R203) -/
  | unpad
  /-- 0x0C ENC (R221) -/
  | enc
  /-- 0x0D DEC (R223) -/
  | dec
  /-- 0x0E ZERO (R226) -/
  | zero
  deriving DecidableEq, Repr

/-- The fields of a command word (R90): `zero` 31:12, `rnd` 11:8, `op` 7:0. -/
structure Fields where
  zero : BitVec 20
  rnd : BitVec 4
  op : BitVec 8
  deriving DecidableEq, Repr

end Sys2Proof
end

