-- ==== Sys2Proof/Machine/Dispatch.lean ====
section
/-! DEFINITION. The meaning of each command, one arm per constructor of `Instr`. -/

namespace Sys2Proof.Machine

def exec (i : Instr) (s : State) : Host.Outcome State Fault Refusal :=
  match i with
  | .nop => Sys2Proof.Machine.execNop s
  | .kdf => Sys2Proof.Machine.execKdf s
  | .ldkey => Sys2Proof.Machine.execLdkey s
  | .sbgen => Sys2Proof.Machine.execSbgen s
  | .gensb => Sys2Proof.Machine.execGensb s
  | .ldsb => Sys2Proof.Machine.execLdsb s
  | .stsb => Sys2Proof.Machine.execStsb s
  | .rndf rnd => Sys2Proof.Machine.execRndf rnd s
  | .fwd => Sys2Proof.Machine.execFwd s
  | .inv => Sys2Proof.Machine.execInv s
  | .pad => Sys2Proof.Machine.execPad s
  | .unpad => Sys2Proof.Machine.execUnpad s
  | .enc => Sys2Proof.Machine.execEnc s
  | .dec => Sys2Proof.Machine.execDec s
  | .zero => Sys2Proof.Machine.execZero s

end Sys2Proof.Machine
end

