-- ==== Sys2Proof/WellFormed.lean ====
section
/-! DEFINITION. Which field triples are legal command words (spec/30_encoding.md R90, R91, R96), and the fields of
each command. The three checks are stated on `Fields`, because a term of `Instr` cannot be ill-formed: its only operand
is a 4-bit round index, and all sixteen values are legal (R94). -/

namespace Sys2Proof

/-- Bits 31:12 "must be 0 in every command" (R90). -/
def Fields.zeroOk (f : Fields) : Bool := f.zero == 0

/-- Opcodes 0x0F to 0xFF are reserved (R96). -/
def Fields.opOk (f : Fields) : Bool := f.op.toNat ≤ 0x0E

/-- `rnd` "must be 0 in format Z"; only RNDF, opcode 0x07, uses format R (R90, R91). -/
def Fields.rndOk (f : Fields) : Bool := f.op == 0x07 || f.rnd == 0

/-- A legal command word (R96). -/
def Fields.wf (f : Fields) : Bool := f.zeroOk && f.opOk && f.rndOk

/-- A format-Z command word (R91). -/
def Fields.formatZ (op : BitVec 8) : Fields := ⟨0, 0, op⟩

/-- A format-R command word (R91). -/
def Fields.formatR (rnd : BitVec 4) (op : BitVec 8) : Fields := ⟨0, rnd, op⟩

/-- The fields of each command, from the opcode map R92. -/
def Instr.fields : Instr → Fields
  | .nop => .formatZ 0x00
  | .kdf => .formatZ 0x01
  | .ldkey => .formatZ 0x02
  | .sbgen => .formatZ 0x03
  | .gensb => .formatZ 0x04
  | .ldsb => .formatZ 0x05
  | .stsb => .formatZ 0x06
  | .rndf rnd => .formatR rnd 0x07
  | .fwd => .formatZ 0x08
  | .inv => .formatZ 0x09
  | .pad => .formatZ 0x0A
  | .unpad => .formatZ 0x0B
  | .enc => .formatZ 0x0C
  | .dec => .formatZ 0x0D
  | .zero => .formatZ 0x0E

/-- A command is well-formed when its fields are. -/
def Instr.wf (i : Instr) : Bool := i.fields.wf

end Sys2Proof
end

