-- ==== Sys2Proof/Decode.lean ====
section
/-! DEFINITION. Decoding and encoding of command words (spec/30_encoding.md R90 to R93, R96). `decode` is `Decode(w)` of
R93; `opcodeRows` is the match / mask table of R92, kept apart so that the two can be proved to agree. -/

namespace Sys2Proof

/-- Why a word is not a command (R93, R96). Every reason completes with ILLCMD. -/
inductive Reject where
  /-- a bit of 31:12 is set -/
  | highBits
  /-- a format-Z opcode with `rnd ≠ 0` -/
  | roundIndex
  /-- an opcode 0x0F to 0xFF -/
  | opcode
  deriving DecidableEq, Repr

/-- The fields of a 32-bit word (R90). -/
def fieldsOf (w : Word) : Fields :=
  ⟨w.extractLsb' 12 20, w.extractLsb' 8 4, w.extractLsb' 0 8⟩

/-- The format-Z command of an opcode (R92). -/
def commandZ (op : BitVec 8) : Option Instr :=
  match op.toNat with
  | 0x00 => some .nop
  | 0x01 => some .kdf
  | 0x02 => some .ldkey
  | 0x03 => some .sbgen
  | 0x04 => some .gensb
  | 0x05 => some .ldsb
  | 0x06 => some .stsb
  | 0x08 => some .fwd
  | 0x09 => some .inv
  | 0x0A => some .pad
  | 0x0B => some .unpad
  | 0x0C => some .enc
  | 0x0D => some .dec
  | 0x0E => some .zero
  | _ => none

/-- `Decode(w)` (R93), total on 32-bit words. -/
def decode (w : Word) : Except Reject Instr :=
  let f := fieldsOf w
  if f.zero ≠ 0 then .error .highBits
  else if f.op = 0x07 then .ok (.rndf f.rnd)
  else match commandZ f.op with
    | none => .error .opcode
    | some i => if f.rnd = 0 then .ok i else .error .roundIndex

/-- The word with the given fields, `zero` in the high bits (R90). -/
def Fields.word (f : Fields) : Word := f.zero ++ f.rnd ++ f.op

/-- The command word of a command (R91): the opcode number in format Z, `256 * rnd + op` in format R. -/
def encode (i : Instr) : Word := i.fields.word

/-- A row of the opcode map R92. `build` takes word bits 11:8; only RNDF uses them. -/
structure OpcodeRow where
  pattern : Word
  mask : Word
  build : BitVec 4 → Instr

/-- The "word (match / mask)" column of R92. -/
def opcodeRows : List OpcodeRow :=
  [ ⟨0x00000000, 0xFFFFFFFF, fun _ => .nop⟩,
    ⟨0x00000001, 0xFFFFFFFF, fun _ => .kdf⟩,
    ⟨0x00000002, 0xFFFFFFFF, fun _ => .ldkey⟩,
    ⟨0x00000003, 0xFFFFFFFF, fun _ => .sbgen⟩,
    ⟨0x00000004, 0xFFFFFFFF, fun _ => .gensb⟩,
    ⟨0x00000005, 0xFFFFFFFF, fun _ => .ldsb⟩,
    ⟨0x00000006, 0xFFFFFFFF, fun _ => .stsb⟩,
    ⟨0x00000007, 0xFFFFF0FF, fun rnd => .rndf rnd⟩,
    ⟨0x00000008, 0xFFFFFFFF, fun _ => .fwd⟩,
    ⟨0x00000009, 0xFFFFFFFF, fun _ => .inv⟩,
    ⟨0x0000000A, 0xFFFFFFFF, fun _ => .pad⟩,
    ⟨0x0000000B, 0xFFFFFFFF, fun _ => .unpad⟩,
    ⟨0x0000000C, 0xFFFFFFFF, fun _ => .enc⟩,
    ⟨0x0000000D, 0xFFFFFFFF, fun _ => .dec⟩,
    ⟨0x0000000E, 0xFFFFFFFF, fun _ => .zero⟩ ]

/-- A word selects a row when its masked bits are the row's pattern (R92). -/
def OpcodeRow.selects (row : OpcodeRow) (w : Word) : Bool := (w &&& row.mask) == row.pattern

/-- The instruction read from an opcode-table word: a command is one 32-bit word (R90), so the bits above `nbits` are 0
and a wider word is no command. -/
def decodeTableWord (nbits w : Nat) : Option Instr :=
  if nbits ≤ 32 ∧ w < 2 ^ nbits then (decode (BitVec.ofNat 32 w)).toOption else none

end Sys2Proof
end

