-- ==== Sys2Proof/Machine/Footprint.lean ====
section
/-! DEFINITION. What a command reads and writes in MEM (spec/20_memory.md R72), and what a reset leaves of a command it
abandons (spec/70_reset_and_hazards.md R291). -/

namespace Sys2Proof.Machine

/-- What a command hands to its completion step, for every command: an error, or its effect. -/
def effect : Instr → State → Except CmdError Effect
  | .nop, s => effectNop s
  | .kdf, s => effectKdf s
  | .ldkey, s => effectLdkey s
  | .sbgen, s => effectSbgen s
  | .gensb, s => effectGensb s
  | .ldsb, s => effectLdsb s
  | .stsb, s => effectStsb s
  | .rndf rnd, s => effectRndf rnd s
  | .fwd, s => effectFwd s
  | .inv, s => effectInv s
  | .pad, s => effectPad s
  | .unpad, s => effectUnpad s
  | .enc, s => effectEnc s
  | .dec, s => effectDec s
  | .zero, s => effectZero s

/-- The bytes of MEM from `start` on, `count` of them. -/
structure Range where
  start : Nat
  count : Nat
  deriving DecidableEq, Repr

/-- The address lies in the range. -/
def Range.has (rg : Range) (a : Nat) : Prop := rg.start ≤ a ∧ a < rg.start + rg.count

/-- The bytes a scan from `addr` reads: the string and its terminator, or all that is left of MEM when there is no
terminator (R67). -/
def scanRange (m : Mem) (addr : Nat) : Range :=
  match scanZ m addr with
  | .ok bs => ⟨addr, bs.length + 1⟩
  | .error _ => ⟨addr, m.size - addr⟩

/-- The "reads" column of R72. An erroring command "may have read any part of its read set". -/
def readRanges (i : Instr) (s : State) : List Range :=
  let src := operand s.src
  let pwa := operand s.pwa
  match i with
  | .nop | .sbgen | .zero | .stsb => []
  | .kdf | .gensb => [scanRange s.mem pwa]
  | .ldkey => [⟨src, 32⟩]
  | .ldsb => [⟨src, 4096⟩]
  | .rndf _ => [⟨src, 4⟩]
  | .fwd | .inv => [⟨src, 8⟩]
  | .pad | .unpad => [⟨src, operand s.len⟩]
  | .enc => [scanRange s.mem src, scanRange s.mem pwa]
  | .dec => [scanRange s.mem pwa, ⟨src, operand s.len⟩]

/-- The "writes" column of R72: the range of the command's one `MemWrite`; "an erroring command writes nothing". -/
def writeRange (i : Instr) (s : State) : Range :=
  match effect i s with
  | .ok e => ⟨e.storeAddr, e.storeBytes.length⟩
  | .error _ => ⟨0, 0⟩

/-- `n` fresh arbitrary bytes. -/
def freshBytes (count n : Nat) : List Byte := (List.range n).map fun k => Config.freeByte (count + k)

/-- The write footprint of the command in flight, empty when there is none or its word is illegal. -/
def pendingRange (s : State) : Range :=
  match decode s.cmd with
  | .ok i => if s.busy then writeRange i s else ⟨0, 0⟩
  | .error _ => ⟨0, 0⟩

/-- The reset input `rst` (R290): the engine state of R43 over an unchanged MEM. While a command is in flight it is
abandoned, and the bytes of its write footprint become arbitrary values (R291, U2; assumption 5). The outside world's
own fields stay (assumption 11). -/
def resetEngine (s : State) : State :=
  let rg := pendingRange s
  { State.afterReset (memWrite s.mem rg.start (freshBytes s.freeCount rg.count)) with
    agenda := s.agenda
    replies := s.replies
    freeCount := s.freeCount + rg.count }

end Sys2Proof.Machine
end

