-- ==== Sys2Proof/Machine/HostAccess.lean ====
section
/-! DEFINITION. What the host does (spec/10_state.md R25 to R35; spec/30_encoding.md R95, R97; spec/20_memory.md R60;
spec/70_reset_and_hazards.md R295, R296): register reads and writes, MEM reads and writes. -/

namespace Sys2Proof.Machine

/-- The bus address of a register, `REG_BASE` plus its offset (R25). No rule depends on it. -/
def registerAddress (offset : Nat) : Nat := Config.regBase + offset

/-- A host read at a 4-byte aligned offset (R25, R32); an unmapped offset reads 0 (R35). -/
def readReg (s : State) (offset : Nat) : Word :=
  match offset with
  | 0x00 => s.cmd
  | 0x04 => statusWord s
  | 0x08 => ctrlWord s
  | 0x0C => s.src
  | 0x10 => s.dst
  | 0x14 => s.len
  | 0x18 => s.pwa
  | 0x1C => s.outlen
  | 0x20 => s.errAddr
  | _ => 0

/-- A host write to CMD: accepted while idle (R26); while busy ignored, and OVR is set (R34). -/
def writeCmd (s : State) (v : Word) : State := if s.busy then { s with ovr := true } else accept s v

/-- A host write at a 4-byte aligned offset (R33, R34). STATUS and CTRL are honoured at any time, the operand registers
only while idle; OUTLEN, ERRADDR and unmapped offsets ignore writes (R30, R31, R35). -/
def writeReg (s : State) (offset : Nat) (v : Word) : State :=
  match offset with
  | 0x00 => writeCmd s v
  | 0x04 => writeStatus s v
  | 0x08 => writeCtrl s v
  | 0x0C => if s.busy then s else { s with src := v }
  | 0x10 => if s.busy then s else { s with dst := v }
  | 0x14 => if s.busy then s else { s with len := v }
  | 0x18 => if s.busy then s else { s with pwa := v }
  | _ => s

/-- One action of the host. A register access that is not 4-byte aligned is refused (R35, U6; assumption 9); a
MEM access while busy is refused (R295, U3; assumption 10); a MEM access that leaves MEM faults (R60; assumption 10). -/
def hostAct (a : HostAction) (s : State) : Host.Outcome State Fault Refusal :=
  match a with
  | .wr offset v =>
    if offset % 4 = 0 then .next (writeReg s offset v) else .refused (.registerMisaligned offset)
  | .rd offset =>
    if offset % 4 = 0 then .next { s with replies := .word (readReg s offset) :: s.replies }
    else .refused (.registerMisaligned offset)
  | .mset addr bs =>
    if s.busy then .refused .hostMemWhileBusy
    else match checkRange s.mem addr bs.length with
      | .ok _ => .next { s with mem := memWrite s.mem addr bs }
      | .error _ => .fault (.hostAddressAbsent (s.mem.firstAbsent addr))
  | .mget addr n =>
    if s.busy then .refused .hostMemWhileBusy
    else match checkRange s.mem addr n with
      | .ok _ => .next { s with replies := .bytes (memRead s.mem addr n) :: s.replies }
      | .error _ => .fault (.hostAddressAbsent (s.mem.firstAbsent addr))

/-! ### The pseudo-operations of the host notation (R97) -/

/-- `MNEMONIC` or `RNDF rnd`: `wr CMD, word`. -/
def issue (i : Instr) : Turn := .host (.wr 0x00 (encode i))

/-- `wait`: the engine completes, and the host's read of STATUS then returns DONE = 1. -/
def waitDone : List Turn := [.engine, .host (.rd 0x04)]

/-- `ack`: `wr STATUS, 0x00000002`. -/
def ack : Turn := .host (.wr 0x04 0x00000002)

end Sys2Proof.Machine
end

