-- ==== Sys2Proof/Machine/Engine.lean ====
section
/-! DEFINITION. The turns of the two agents and of the reset input (spec/00_scope.md R7; spec/20_memory.md R70). The
engine's turn is the completion step of the command in flight: CMD is decoded there and not before (spec/10_state.md
R26, spec/30_encoding.md R96). -/

namespace Sys2Proof.Machine

/-- The engine's turn: it completes the command in flight, an illegal word with ILLCMD (R96, R255); an idle engine
"simply waits for a CMD write and keeps all its state" (R266). -/
def engineTurn (s : State) : Host.Outcome State Fault Refusal :=
  if s.busy then
    match decode s.cmd with
    | .ok i => exec i s
    | .error _ => .next (raise s .illcmd)
  else .next s

/-- One turn. -/
def takeTurn (t : Turn) (s : State) : Host.Outcome State Fault Refusal :=
  match t with
  | .engine => engineTurn s
  | .host a => hostAct a s
  | .rst => .next (resetEngine s)

/-- Who moves next, and the state with that turn taken off the agenda; with nothing to come it is the engine's turn. -/
def nextTurn (s : State) : Turn × State :=
  match s.agenda with
  | [] => (.engine, s)
  | t :: rest => (t, { s with agenda := rest })

end Sys2Proof.Machine
end

