-- ==== Sys2Proof/Machine/Step.lean ====
section
/-! DEFINITION. One step of the machine, and a command word put where the next step runs it. -/

namespace Sys2Proof.Machine

/-- One step: the agent whose turn it is moves (assumption 4). -/
def step (s : State) : Host.Outcome State Fault Refusal := takeTurn (nextTurn s).1 (nextTurn s).2

/-- The state in which the host has just written the word to CMD and it is the engine's turn: the word is accepted
(R26), so the very next step is its completion step. There is no instruction memory (R40); a program is the sequence of
the host's writes to CMD (assumption 6). -/
def State.withFetchWord (s : State) (nbits w : Nat) : State :=
  { accept s (BitVec.ofNat 32 (w % 2 ^ nbits)) with agenda := .engine :: s.agenda }

end Sys2Proof.Machine
end

