-- ==== Sys2Proof/Safety.lean ====
section
/-! DEFINITION. What every state of a safe run satisfies: the invariants the spec states or derives of the machine. -/

namespace Sys2Proof.Machine

/-- MEM is canonical and its size is one R6 allows: 1 <= MEM_BYTES <= 2^32 - 1. -/
structure Mem.Legal (m : Mem) : Prop where
  canonical : m.wf = true
  size_pos : 1 ≤ m.size
  size_le : m.size ≤ 2 ^ 32 - 1

/-- The invariants of the engine: R21 and R22 (an invalid KEY or SBOX is all zero), R23 (L and R are zero between
steps), R26 (BUSY and DONE are never both set), and R27, R30, R31, R250 (PADW and OUTLEN come from a completion without
error, ERRADDR from a MEMX, and then it names no byte). -/
structure State.Inv (s : State) : Prop where
  mem_legal : s.mem.Legal
  key_zero : s.kv = false → s.key = Key.zero
  sbox_zero : s.sbv = false → s.sbox = SBoxSet.zero
  l_zero : s.l = Half.zero
  r_zero : s.r = Half.zero
  busy_done : ¬ (s.busy = true ∧ s.done = true)
  error_results : s.err ≠ .ok → s.outlen = 0 ∧ s.padw = false
  no_memx_addr : s.err ≠ .memx → s.errAddr = 0
  memx_addr : s.err = .memx → s.mem.size ≤ s.errAddr.toNat

end Sys2Proof.Machine
end

