-- ==== Sys2Proof/Certificates/Slice0/Obligations.lean ====
section
/-! DEFINITION. The statements for the provers. Each docstring names the rule of spec/ it formalises. Where a command's
next state is given, it is given whole, as an equality, so the same line says what changes and that nothing else does. -/

namespace Sys2Proof.Claims
open Sys2Proof.Machine

/-- A zero-terminated string lies at `a` inside MEM (R62, R67). -/
def stringAt (m : Mem) (a : Word) (bs : List Byte) : Prop :=
  a.toNat + bs.length < m.size ∧
  (∀ i (h : i < bs.length), m.byte (a.toNat + i) = bs[i] ∧ bs[i] ≠ 0) ∧
  m.byte (a.toNat + bs.length) = 0

/-- No zero byte lies between `a` and the end of MEM (also when `a` is beyond the end). -/
def noTerminator (m : Mem) (a : Word) : Prop := ∀ x, a.toNat ≤ x → x < m.size → m.byte x ≠ 0

/-- The range of `n` bytes at `a` lies inside MEM (R66). -/
def inside (m : Mem) (a : Word) (n : Nat) : Prop := n = 0 ∨ a.toNat + n ≤ m.size

/-- The lowest address of a range or scan from `a` that names no byte, as ERRADDR records it (R66, R67). -/
def absentFrom (m : Mem) (a : Word) : Word := if m.size ≤ a.toNat then a else BitVec.ofNat 32 m.size

/-- The bytes `bs` lie at `a ..`. -/
def bytesLieAt (m : Mem) (a : Word) (bs : List Byte) : Prop :=
  ∀ i (h : i < bs.length), m.byte (a.toNat + i) = bs[i]

/-- `m'` is `m` with the bytes `bs` at `a ..`, every other byte as before. -/
def storedAt (m m' : Mem) (a : Word) (bs : List Byte) : Prop :=
  m'.size = m.size ∧ bytesLieAt m' a bs ∧
  ∀ x, (x < a.toNat ∨ a.toNat + bs.length ≤ x) → m'.byte x = m.byte x

/-- The completion lines of R254. -/
def completed (s : State) (outlen : Nat) (padw : Bool) : State :=
  { s with
    err := .ok, padw := padw, outlen := BitVec.ofNat 32 outlen, errAddr := 0,
    l := Half.zero, r := Half.zero, busy := false, done := true }

/-- The completion lines of R255. -/
def failed (s : State) (code : ErrCode) (addr : Word) : State :=
  { s with
    err := code, padw := false, outlen := 0, errAddr := addr,
    l := Half.zero, r := Half.zero, busy := false, done := true }

/-- KEY and SBOX zeroised, KV and SBV cleared (R222). -/
def wiped (s : State) : State :=
  { s with key := Key.zero, kv := false, sbox := SBoxSet.zero, sbv := false }

/-- The engine is to move: it heads the agenda, or nothing else is left. `rest` is what the agenda is afterwards. -/
def engineMoves (s : State) (rest : List Turn) : Prop :=
  s.agenda = .engine :: rest ∨ (s.agenda = [] ∧ rest = [])

/-- ENC and DEC, the two commands that zeroise on an error (R222). -/
def zeroisesOnError : Instr → Bool
  | .enc | .dec => true
  | _ => false

/-- How many bytes at DST a command stores (R72), given its next state. -/
def storeCount (i : Instr) (s t : State) : Nat :=
  if t.err = .ok then
    match i with
    | .stsb => 4096
    | .rndf _ => 4
    | .fwd | .inv => 8
    | .pad => s.len.toNat + (8 - s.len.toNat % 8)
    | .enc | .dec => t.outlen.toNat
    | .nop | .kdf | .ldkey | .sbgen | .gensb | .ldsb | .unpad | .zero => 0
  else 0

/-- The flag effects of R42 on (KV, SBV), for a completion without error. -/
def flagsAfter (i : Instr) (kv sbv : Bool) : Bool × Bool :=
  match i with
  | .nop | .stsb | .rndf _ | .fwd | .inv | .pad | .unpad => (kv, sbv)
  | .kdf | .ldkey => (true, sbv)
  | .sbgen | .gensb => (false, true)
  | .ldsb => (kv, true)
  | .enc | .dec | .zero => (false, false)

/-- The "raised by" column of R250. -/
def raises : ErrCode → Instr → Prop
  | .ok, _ => True
  | .illcmd, _ => False
  | .nokey, i => i = .sbgen
  | .nosbox, i => i = .stsb ∨ (∃ rnd, i = .rndf rnd) ∨ i = .fwd ∨ i = .inv
  | .badlen, i => i = .unpad ∨ i = .dec
  | .memx, i => i ≠ .nop ∧ i ≠ .sbgen ∧ i ≠ .zero

/-- The "code" column of R250. -/
def codeNumber : ErrCode → Nat
  | .ok => 0
  | .illcmd => 1
  | .nokey => 2
  | .nosbox => 3
  | .badlen => 4
  | .memx => 5

/-- `l` is bytes 0 to 3 of the block and `r` is bytes 4 to 7 (R180). -/
def halvesAre (b : Block) (l r : Half) : Prop := ∀ i : Fin 4, b[i.val] = l[i] ∧ b[4 + i.val] = r[i]

/-- `x = y xor f`, byte by byte (R180). -/
def isXor (x y f : Half) : Prop := ∀ i : Fin 4, x[i] = y[i] ^^^ f[i]

/-- A 32-bit register access at an aligned offset. -/
def registerAccess : HostAction → Prop
  | .wr offset _ => offset % 4 = 0
  | .rd offset => offset % 4 = 0
  | .mset _ _ => False
  | .mget _ _ => False

/-- The thirty legal command words (R96). -/
def legalWords : List Word :=
  (List.range 15).map (BitVec.ofNat 32) ++ (List.range 15).map fun k => BitVec.ofNat 32 (256 * (k + 1) + 7)

/-- The machine whose runs `Host.Core.run` gives, from a state. -/
def runs (n : Nat) (s : State) : Host.Outcome State Fault Refusal := Host.Core.run Sys2Proof.core n s

end Sys2Proof.Claims

open Sys2Proof Sys2Proof.Machine Sys2Proof.Claims

/-! ### Encoding -/

/-- R91, R92, R93: the words that decode to a command are exactly that command's encoding, for every 32-bit word. -/
def Obligations.DecodeExactlyInvertsEncode : Prop :=
  ∀ (w : Word) (i : Instr), decode w = .ok i ↔ w = encode i

/-- R92: a word selects the row whose masked bits match, the rows are mutually exclusive, and decoding follows them. -/
def Obligations.OpcodeMapSelectsAtMostOneRow : Prop :=
  ∀ w : Word,
    (∀ (j k : Nat) (hj : j < opcodeRows.length) (hk : k < opcodeRows.length),
      w &&& opcodeRows[j].mask = opcodeRows[j].pattern →
      w &&& opcodeRows[k].mask = opcodeRows[k].pattern → j = k) ∧
    ∀ i, decode w = .ok i ↔
      ∃ row ∈ opcodeRows, w &&& row.mask = row.pattern ∧ row.build (w.extractLsb' 8 4) = i

/-- R93, the definition of Decode read on natural numbers. -/
def Obligations.DecodeReadsTheThreeFields : Prop :=
  ∀ w : Word,
    (w.toNat / 2 ^ 12 ≠ 0 → ∃ e, decode w = .error e) ∧
    (w.toNat / 2 ^ 12 = 0 → w.toNat % 256 = 7 →
      ∃ rnd : BitVec 4, rnd.toNat = w.toNat / 256 ∧ decode w = .ok (.rndf rnd)) ∧
    (w.toNat / 2 ^ 12 = 0 → w.toNat % 256 ≠ 7 → w.toNat % 256 ≤ 0x0E → w.toNat / 256 = 0 →
      ∃ i, decode w = .ok i ∧ i.fields.op.toNat = w.toNat % 256) ∧
    (w.toNat / 2 ^ 12 = 0 → w.toNat % 256 ≠ 7 → (0x0E < w.toNat % 256 ∨ w.toNat / 256 ≠ 0) →
      ∃ e, decode w = .error e)

/-- R96, "Count: of the 2^32 words, 14 + 16 = 30 are legal", and which they are (V91's note). -/
def Obligations.ThirtyWordsAreLegal : Prop :=
  legalWords.length = 30 ∧ legalWords.Nodup ∧
  ∀ w : Word, (∃ i, decode w = .ok i) ↔ w ∈ legalWords

/-- R92's words, one or more of each family, and the illegal words V85 to V91. -/
def Obligations.SampleWordsDecodeAsTheMapSays : Prop :=
  decode 0x00000000 = .ok .nop ∧ decode 0x00000002 = .ok .ldkey ∧ decode 0x00000004 = .ok .gensb ∧
  decode 0x00000F07 = .ok (.rndf 15) ∧ decode 0x00000009 = .ok .inv ∧ decode 0x0000000B = .ok .unpad ∧
  decode 0x0000000D = .ok .dec ∧ decode 0x0000000E = .ok .zero ∧
  decode 0x0000000F = .error .opcode ∧ decode 0x0000010C = .error .roundIndex ∧
  decode 0x00001007 = .error .highBits ∧ decode 0xFFFFFFFF = .error .highBits

/-! ### The step -/

/-- R26, R70: with a command in flight, the engine's turn is the completion step of the command CMD decodes to, on the
state with that turn taken off the agenda (the agenda is the model's own, assumption 4). -/
def Obligations.StepRunsTheDecodedCommand : Prop :=
  ∀ (s : State) (rest : List Turn) (i : Instr),
    engineMoves s rest → s.busy = true → decode s.cmd = .ok i → step s = exec i { s with agenda := rest }

/-- R96, R255: an illegal word completes with ILLCMD; MEM, KEY, SBOX, KV and SBV are unchanged. -/
def Obligations.IllegalWordCompletesWithIllcmd : Prop :=
  ∀ (s : State) (rest : List Turn) (e : Reject),
    engineMoves s rest → s.busy = true → decode s.cmd = .error e →
      step s = .next (failed { s with agenda := rest } .illcmd 0)

/-- R266: "an idle engine simply waits for a CMD write and keeps all its state". -/
def Obligations.IdleEngineKeepsItsState : Prop :=
  ∀ (s : State) (rest : List Turn),
    engineMoves s rest → s.busy = false → step s = .next { s with agenda := rest }

/-- R259, R303: whatever word was accepted, the completion step happens, leaves the engine idle, and the next write to
CMD is accepted. -/
def Obligations.EveryAcceptedWordCompletesAndTheEngineIsUsable : Prop :=
  ∀ (s : State) (rest : List Turn), engineMoves s rest → s.busy = true →
    ∃ t, step s = .next t ∧ t.busy = false ∧ t.done = true ∧ t.agenda = rest ∧
      ∀ v : Word, hostAct (.wr 0x00 v) t = .next { t with cmd := v, busy := true, done := false }

/-- R34, "The command in flight is not disturbed": any register accesses of the host between the accept and the
completion leave the command's whole effect as it would have been without them. -/
def Obligations.BusyAccessesDoNotDisturbTheCommand : Prop :=
  ∀ (s t : State) (acts : List HostAction),
    s.busy = true → (∀ a ∈ acts, registerAccess a) → s.agenda = acts.map .host →
    step { s with agenda := [] } = .next t →
    ∃ t', runs (acts.length + 1) s = .next t' ∧
      t'.key = t.key ∧ t'.kv = t.kv ∧ t'.sbox = t.sbox ∧ t'.sbv = t.sbv ∧ t'.mem = t.mem ∧
      t'.cmd = t.cmd ∧ t'.err = t.err ∧ t'.padw = t.padw ∧ t'.outlen = t.outlen ∧ t'.errAddr = t.errAddr ∧
      t'.src = t.src ∧ t'.dst = t.dst ∧ t'.len = t.len ∧ t'.pwa = t.pwa ∧
      t'.busy = false ∧ t'.done = true

/-! ### The commands -/

/-- R227. -/
def Obligations.NopOnlyCompletes : Prop :=
  decode 0x00000000 = .ok .nop ∧ ∀ s : State, exec .nop s = .next (completed s 0 false)

/-- R121. -/
def Obligations.KdfHoldsThePasswordDigest : Prop :=
  decode 0x00000001 = .ok .kdf ∧ ∀ s : State,
    (∀ pw, stringAt s.mem s.pwa pw →
      exec .kdf s = .next (completed { s with key := deriveKey pw, kv := true } 0 false)) ∧
    (noTerminator s.mem s.pwa → exec .kdf s = .next (failed s .memx (absentFrom s.mem s.pwa)))

/-- R122. -/
def Obligations.LdkeyLoadsThirtyTwoBytes : Prop :=
  decode 0x00000002 = .ok .ldkey ∧ ∀ s : State,
    (∀ key : Key, s.src.toNat + 32 ≤ s.mem.size → (∀ i : Fin 32, s.mem.byte (s.src.toNat + i) = key[i]) →
      exec .ldkey s = .next (completed { s with key := key, kv := true } 0 false)) ∧
    (s.mem.size < s.src.toNat + 32 → exec .ldkey s = .next (failed s .memx (absentFrom s.mem s.src)))

/-- R150. -/
def Obligations.SbgenGeneratesTablesAndZeroisesKey : Prop :=
  decode 0x00000003 = .ok .sbgen ∧ ∀ s : State,
    (s.kv = true →
      exec .sbgen s = .next (completed
        { s with key := Key.zero, kv := false, sbox := generateSBoxSet s.key, sbv := true } 0 false)) ∧
    (s.kv = false → exec .sbgen s = .next (failed s .nokey 0))

/-- R151. -/
def Obligations.GensbGeneratesTablesFromThePassword : Prop :=
  decode 0x00000004 = .ok .gensb ∧ ∀ s : State,
    (∀ pw, stringAt s.mem s.pwa pw →
      exec .gensb s = .next (completed
        { s with key := Key.zero, kv := false, sbox := generateSBoxSet (deriveKey pw), sbv := true } 0 false)) ∧
    (noTerminator s.mem s.pwa → exec .gensb s = .next (failed s .memx (absentFrom s.mem s.pwa)))

/-- R152. -/
def Obligations.LdsbLoadsAnyTableSet : Prop :=
  decode 0x00000005 = .ok .ldsb ∧ ∀ s : State,
    (∀ ss : SBoxSet, s.src.toNat + 4096 ≤ s.mem.size →
      (∀ (r : Fin 16) (i : Fin 256), s.mem.byte (s.src.toNat + 256 * r + i) = ss[r][i]) →
      exec .ldsb s = .next (completed { s with sbox := ss, sbv := true } 0 false)) ∧
    (s.mem.size < s.src.toNat + 4096 → exec .ldsb s = .next (failed s .memx (absentFrom s.mem s.src)))

/-- R153. -/
def Obligations.StsbStoresTheTableSet : Prop :=
  decode 0x00000006 = .ok .stsb ∧ ∀ s : State,
    (s.sbv = false → exec .stsb s = .next (failed s .nosbox 0)) ∧
    (s.sbv = true → s.mem.size < s.dst.toNat + 4096 →
      exec .stsb s = .next (failed s .memx (absentFrom s.mem s.dst))) ∧
    (s.sbv = true → s.dst.toNat + 4096 ≤ s.mem.size →
      ∃ m', exec .stsb s = .next (completed { s with mem := m' } 0 false) ∧ m'.size = s.mem.size ∧
        (∀ (r : Fin 16) (i : Fin 256), m'.byte (s.dst.toNat + 256 * r + i) = s.sbox[r][i]) ∧
        ∀ x, (x < s.dst.toNat ∨ s.dst.toNat + 4096 ≤ x) → m'.byte x = s.mem.byte x)

/-- R171. -/
def Obligations.RndfAppliesTheRoundFunctionOnce : Prop :=
  ∀ rnd : BitVec 4, decode (BitVec.ofNat 32 (256 * rnd.toNat + 7)) = .ok (.rndf rnd) ∧ ∀ s : State,
    (s.sbv = false → exec (.rndf rnd) s = .next (failed s .nosbox 0)) ∧
    (s.sbv = true → ¬ inside s.mem s.src 4 →
      exec (.rndf rnd) s = .next (failed s .memx (absentFrom s.mem s.src))) ∧
    (s.sbv = true → inside s.mem s.src 4 → ¬ inside s.mem s.dst 4 →
      exec (.rndf rnd) s = .next (failed s .memx (absentFrom s.mem s.dst))) ∧
    (∀ inp : Half, s.sbv = true → inside s.mem s.src 4 → inside s.mem s.dst 4 →
      bytesLieAt s.mem s.src inp.toList →
      ∃ m', exec (.rndf rnd) s = .next (completed { s with mem := m' } 0 false) ∧
        storedAt s.mem m' s.dst (roundFunction inp (s.sbox[rnd.toNat]'rnd.isLt)).toList)

/-- R183. -/
def Obligations.FwdTransformsTheBlock : Prop :=
  decode 0x00000008 = .ok .fwd ∧ ∀ s : State,
    (s.sbv = false → exec .fwd s = .next (failed s .nosbox 0)) ∧
    (s.sbv = true → ¬ inside s.mem s.src 8 → exec .fwd s = .next (failed s .memx (absentFrom s.mem s.src))) ∧
    (s.sbv = true → inside s.mem s.src 8 → ¬ inside s.mem s.dst 8 →
      exec .fwd s = .next (failed s .memx (absentFrom s.mem s.dst))) ∧
    (∀ b : Block, s.sbv = true → inside s.mem s.src 8 → inside s.mem s.dst 8 →
      bytesLieAt s.mem s.src b.toList →
      ∃ m', exec .fwd s = .next (completed { s with mem := m' } 0 false) ∧
        storedAt s.mem m' s.dst (forward b s.sbox).toList)

/-- R184. -/
def Obligations.InvTransformsTheBlockBack : Prop :=
  decode 0x00000009 = .ok .inv ∧ ∀ s : State,
    (s.sbv = false → exec .inv s = .next (failed s .nosbox 0)) ∧
    (s.sbv = true → ¬ inside s.mem s.src 8 → exec .inv s = .next (failed s .memx (absentFrom s.mem s.src))) ∧
    (s.sbv = true → inside s.mem s.src 8 → ¬ inside s.mem s.dst 8 →
      exec .inv s = .next (failed s .memx (absentFrom s.mem s.dst))) ∧
    (∀ b : Block, s.sbv = true → inside s.mem s.src 8 → inside s.mem s.dst 8 →
      bytesLieAt s.mem s.src b.toList →
      ∃ m', exec .inv s = .next (completed { s with mem := m' } 0 false) ∧
        storedAt s.mem m' s.dst (inverse b s.sbox).toList)

/-- R202; the stored bytes are R200's, written out. -/
def Obligations.PadCopiesAndAppendsThePadding : Prop :=
  decode 0x0000000A = .ok .pad ∧ ∀ (s : State) (n p : Nat), n = s.len.toNat → p = 8 - n % 8 →
    (¬ inside s.mem s.src n → exec .pad s = .next (failed s .memx (absentFrom s.mem s.src))) ∧
    (inside s.mem s.src n → ¬ inside s.mem s.dst (n + p) →
      exec .pad s = .next (failed s .memx (absentFrom s.mem s.dst))) ∧
    (∀ x : List Byte, x.length = n → inside s.mem s.src n → inside s.mem s.dst (n + p) →
      bytesLieAt s.mem s.src x →
      ∃ m', exec .pad s = .next (completed { s with mem := m' } (n + p) false) ∧
        storedAt s.mem m' s.dst (x ++ List.replicate p (BitVec.ofNat 8 (0x30 + p))))

/-- R203, with R201's unsigned 8-bit candidate written out on the last byte. -/
def Obligations.UnpadReportsTheUnpaddedLength : Prop :=
  decode 0x0000000B = .ok .unpad ∧ ∀ (s : State) (n c : Nat), n = s.len.toNat →
    c = (s.mem.byte (s.src.toNat + n - 1) - 0x30).toNat →
    ((n = 0 ∨ n % 8 ≠ 0) → exec .unpad s = .next (failed s .badlen 0)) ∧
    (n ≠ 0 → n % 8 = 0 → ¬ inside s.mem s.src n →
      exec .unpad s = .next (failed s .memx (absentFrom s.mem s.src))) ∧
    (n ≠ 0 → n % 8 = 0 → inside s.mem s.src n → 8 < c → exec .unpad s = .next (completed s n true)) ∧
    (n ≠ 0 → n % 8 = 0 → inside s.mem s.src n → c ≤ 8 → exec .unpad s = .next (completed s (n - c) false))

/-- R221, R222: plaintext scan, password scan, destination range, in this order; KEY and SBOX zeroised on every path. -/
def Obligations.EncEncryptsAndZeroises : Prop :=
  decode 0x0000000C = .ok .enc ∧ ∀ s : State,
    (noTerminator s.mem s.src → exec .enc s = .next (failed (wiped s) .memx (absentFrom s.mem s.src))) ∧
    (∀ pt, stringAt s.mem s.src pt → noTerminator s.mem s.pwa →
      exec .enc s = .next (failed (wiped s) .memx (absentFrom s.mem s.pwa))) ∧
    (∀ pt pw, stringAt s.mem s.src pt → stringAt s.mem s.pwa pw →
      ¬ inside s.mem s.dst (pt.length + (8 - pt.length % 8)) →
      exec .enc s = .next (failed (wiped s) .memx (absentFrom s.mem s.dst))) ∧
    (∀ pt pw, stringAt s.mem s.src pt → stringAt s.mem s.pwa pw →
      inside s.mem s.dst (pt.length + (8 - pt.length % 8)) →
      ∃ m', exec .enc s = .next (completed { wiped s with mem := m' } (pt.length + (8 - pt.length % 8)) false) ∧
        (encrypt pt pw).length = pt.length + (8 - pt.length % 8) ∧
        storedAt s.mem m' s.dst (encrypt pt pw))

/-- R223, R222: BADLEN, password scan, source range, destination range, in this order; KEY and SBOX zeroised on every
path; exactly the plaintext is written. -/
def Obligations.DecDecryptsAndZeroises : Prop :=
  decode 0x0000000D = .ok .dec ∧ ∀ (s : State) (n : Nat), n = s.len.toNat →
    ((n = 0 ∨ n % 8 ≠ 0) → exec .dec s = .next (failed (wiped s) .badlen 0)) ∧
    (n ≠ 0 → n % 8 = 0 → noTerminator s.mem s.pwa →
      exec .dec s = .next (failed (wiped s) .memx (absentFrom s.mem s.pwa))) ∧
    (∀ pw, n ≠ 0 → n % 8 = 0 → stringAt s.mem s.pwa pw → ¬ inside s.mem s.src n →
      exec .dec s = .next (failed (wiped s) .memx (absentFrom s.mem s.src))) ∧
    (∀ pw ct, n ≠ 0 → n % 8 = 0 → stringAt s.mem s.pwa pw → inside s.mem s.src n →
      ct.length = n → bytesLieAt s.mem s.src ct → ¬ inside s.mem s.dst (decrypt ct pw).1.length →
      exec .dec s = .next (failed (wiped s) .memx (absentFrom s.mem s.dst))) ∧
    (∀ pw ct, n ≠ 0 → n % 8 = 0 → stringAt s.mem s.pwa pw → inside s.mem s.src n →
      ct.length = n → bytesLieAt s.mem s.src ct → inside s.mem s.dst (decrypt ct pw).1.length →
      ∃ m', exec .dec s = .next (completed { wiped s with mem := m' }
          (decrypt ct pw).1.length (decrypt ct pw).2) ∧
        n - 8 ≤ (decrypt ct pw).1.length ∧ (decrypt ct pw).1.length ≤ n ∧
        storedAt s.mem m' s.dst (decrypt ct pw).1)

/-- R226. -/
def Obligations.ZeroClearsKeyAndTables : Prop :=
  decode 0x0000000E = .ok .zero ∧ ∀ s : State, exec .zero s = .next (completed (wiped s) 0 false)

/-! ### Frames, flags and errors of all the commands -/

/-- R72, R254, R255: NOP, KDF, LDKEY, SBGEN, GENSB, LDSB, UNPAD and ZERO store nothing; their destinations are KEY, KV,
SBOX and SBV only, and none but those the command's rule names. -/
def Obligations.FrameOfTheCommandsThatStoreNothing : Prop :=
  ∀ (i : Instr) (s t : State),
    (i = .nop ∨ i = .kdf ∨ i = .ldkey ∨ i = .sbgen ∨ i = .gensb ∨ i = .ldsb ∨ i = .unpad ∨ i = .zero) →
    exec i s = .next t →
    (∀ x, t.mem.byte x = s.mem.byte x) ∧ t.mem.size = s.mem.size ∧
    t.cmd = s.cmd ∧ t.ie = s.ie ∧ t.ovr = s.ovr ∧ t.src = s.src ∧ t.dst = s.dst ∧ t.len = s.len ∧ t.pwa = s.pwa ∧
    t.agenda = s.agenda ∧ t.replies = s.replies ∧ t.freeCount = s.freeCount ∧
    ((i = .nop ∨ i = .ldsb ∨ i = .unpad) → t.key = s.key ∧ t.kv = s.kv) ∧
    ((i = .nop ∨ i = .kdf ∨ i = .ldkey ∨ i = .unpad) → t.sbox = s.sbox ∧ t.sbv = s.sbv)

/-- R72, R65, R254, R255: STSB, RNDF, FWD, INV, PAD, ENC and DEC store at DST, as many bytes as R72 says, and change no
other byte; ENC and DEC also zeroise KEY and SBOX, the others leave them. -/
def Obligations.FrameOfTheCommandsThatStore : Prop :=
  ∀ (i : Instr) (s t : State), s.mem.Legal →
    (i = .stsb ∨ (∃ rnd, i = .rndf rnd) ∨ i = .fwd ∨ i = .inv ∨ i = .pad ∨ i = .enc ∨ i = .dec) →
    exec i s = .next t →
    (∀ x, (x < s.dst.toNat ∨ s.dst.toNat + storeCount i s t ≤ x) → t.mem.byte x = s.mem.byte x) ∧
    t.mem.size = s.mem.size ∧
    t.cmd = s.cmd ∧ t.ie = s.ie ∧ t.ovr = s.ovr ∧ t.src = s.src ∧ t.dst = s.dst ∧ t.len = s.len ∧ t.pwa = s.pwa ∧
    t.agenda = s.agenda ∧ t.replies = s.replies ∧ t.freeCount = s.freeCount ∧
    (zeroisesOnError i = false → t.key = s.key ∧ t.kv = s.kv ∧ t.sbox = s.sbox ∧ t.sbv = s.sbv)

/-- R42, the whole table, with BUSY <- 0 and DONE <- 1 at every completion; the last clause is its illegal-word row. -/
def Obligations.FlagEffectsFollowTheTable : Prop :=
  (∀ (i : Instr) (s t : State), exec i s = .next t →
    t.busy = false ∧ t.done = true ∧
    (t.err = .ok → (t.kv, t.sbv) = flagsAfter i s.kv s.sbv) ∧
    (t.err ≠ .ok → (t.kv, t.sbv) = if zeroisesOnError i then (false, false) else (s.kv, s.sbv)) ∧
    ((i = .sbgen ∨ i = .gensb) → t.err = .ok → t.key = Key.zero) ∧
    ((i = .enc ∨ i = .dec ∨ i = .zero) → t.key = Key.zero ∧ t.sbox = SBoxSet.zero) ∧
    ((i = .nop ∨ i = .zero) → t.err = .ok)) ∧
  ∀ (s t : State) (rest : List Turn) (e : Reject), engineMoves s rest → s.busy = true → decode s.cmd = .error e →
    step s = .next t → t.busy = false ∧ t.done = true ∧ t.err ≠ .ok ∧ t.kv = s.kv ∧ t.sbv = s.sbv

/-- R255: an erroring command writes no MEM byte and leaves KEY, SBOX, KV and SBV, except that ENC and DEC zeroise;
everything else it changes is the lines of R255. -/
def Obligations.ErrorCompletionChangesOnlyItsLines : Prop :=
  ∀ (i : Instr) (s t : State), exec i s = .next t → t.err ≠ .ok →
    t = failed (if zeroisesOnError i then wiped s else s) t.err t.errAddr ∧ (t.err ≠ .memx → t.errAddr = 0)

/-- R250: which command raises which error, and what ERRADDR records. -/
def Obligations.ErrorsAreRaisedAsTheTableSays : Prop :=
  ∀ (i : Instr) (s t : State), s.mem.Legal → exec i s = .next t →
    raises t.err i ∧ (t.err ≠ .memx → t.errAddr = 0) ∧
    (t.err = .memx → ∃ a, (a = s.src ∨ a = s.dst ∨ a = s.pwa) ∧ t.errAddr = absentFrom s.mem a ∧
      s.mem.size ≤ t.errAddr.toNat)

/-! ### Memory -/

/-- R65, R64: MemWrite sets its bytes and no other, and MemRead then returns them. The last clause is no rule of the
spec: that memory has a canonical form, and that a write keeps it, is the model's choice (assumption 1, DESIGN CHOICE). -/
def Obligations.MemWriteSetsItsBytesOnly : Prop :=
  ∀ (m : Mem) (a : Nat) (v : List Byte), (v.length = 0 ∨ a + v.length ≤ m.size) →
    (∀ i (h : i < v.length), (memWrite m a v).byte (a + i) = v[i]) ∧
    (∀ x, (x < a ∨ a + v.length ≤ x) → (memWrite m a v).byte x = m.byte x) ∧
    memRead (memWrite m a v) a v.length = v ∧
    (memWrite m a v).size = m.size ∧ (m.wf = true → (memWrite m a v).wf = true)

/-- R66: when CheckRange passes, and that a failing one names the lowest address of the range that names no byte, which
fits in 32 bits. -/
def Obligations.CheckRangeFindsTheLowestAbsentAddress : Prop :=
  ∀ (m : Mem) (addr : Word) (n : Nat),
    ((n = 0 ∨ addr.toNat + n ≤ m.size) → checkRange m addr.toNat n = .ok ()) ∧
    (¬ (n = 0 ∨ addr.toNat + n ≤ m.size) →
      ∃ bad, checkRange m addr.toNat n = .error (.memx bad) ∧
        (m.size ≤ addr.toNat → bad = addr.toNat) ∧ (addr.toNat < m.size → bad = m.size) ∧
        addr.toNat ≤ bad ∧ bad < addr.toNat + n ∧ m.size ≤ bad ∧
        (∀ x, addr.toNat ≤ x → x < bad → x < m.size) ∧ (m.Legal → bad < 2 ^ 32))

/-- R67: ScanZ returns the string up to the first zero byte, which contains no zero byte, or raises MEMX. -/
def Obligations.ScanZStopsAtTheFirstZeroByte : Prop :=
  ∀ (m : Mem) (addr : Nat),
    (∀ k, addr + k < m.size → m.byte (addr + k) = 0 → (∀ j < k, m.byte (addr + j) ≠ 0) →
      scanZ m addr = .ok (memRead m addr k)) ∧
    ((∀ x, addr ≤ x → x < m.size → m.byte x ≠ 0) →
      scanZ m addr = .error (.memx (if m.size ≤ addr then addr else m.size))) ∧
    (∀ bs, scanZ m addr = .ok bs → (0 : Byte) ∉ bs)

/-! ### Host registers and the host's accesses -/

/-- R27, R250: the layout of STATUS, the number in ERR, and that a host write changes only DONE and OVR, busy or not. -/
def Obligations.StatusReadsItsFieldsAndClearsTwo : Prop :=
  ∀ (s : State) (v : Word),
    (readReg s 0x04).getLsbD 0 = s.busy ∧ (readReg s 0x04).getLsbD 1 = s.done ∧
    (readReg s 0x04).getLsbD 2 = s.kv ∧ (readReg s 0x04).getLsbD 3 = s.sbv ∧
    (readReg s 0x04).getLsbD 4 = s.padw ∧ (readReg s 0x04).getLsbD 5 = s.ovr ∧
    (readReg s 0x04).extractLsb' 6 2 = 0 ∧ ((readReg s 0x04).extractLsb' 8 4).toNat = codeNumber s.err ∧
    (readReg s 0x04).extractLsb' 12 20 = 0 ∧
    hostAct (.wr 0x04 v) s =
      .next { s with done := s.done && !v.getLsbD 1, ovr := s.ovr && !v.getLsbD 5 }

/-- R28: CTRL has one bit, IE, written at any time; the rest reads 0. -/
def Obligations.CtrlHoldsOnlyTheInterruptEnable : Prop :=
  ∀ (s : State) (v : Word),
    readReg s 0x08 = (if s.ie then 1 else 0) ∧
    hostAct (.wr 0x08 v) s = .next { s with ie := v.getLsbD 0 } ∧
    ∀ t, hostAct (.wr 0x08 v) s = .next t → readReg t 0x08 = v &&& 1

/-- R33, R29, R26: the host's writes while the engine is idle. -/
def Obligations.IdleHostWritesTakeEffect : Prop :=
  ∀ (s : State) (v : Word), s.busy = false →
    hostAct (.wr 0x00 v) s = .next { s with cmd := v, busy := true, done := false } ∧
    hostAct (.wr 0x04 v) s = .next { s with done := s.done && !v.getLsbD 1, ovr := s.ovr && !v.getLsbD 5 } ∧
    hostAct (.wr 0x08 v) s = .next { s with ie := v.getLsbD 0 } ∧
    hostAct (.wr 0x0C v) s = .next { s with src := v } ∧
    hostAct (.wr 0x10 v) s = .next { s with dst := v } ∧
    hostAct (.wr 0x14 v) s = .next { s with len := v } ∧
    hostAct (.wr 0x18 v) s = .next { s with pwa := v } ∧
    hostAct (.wr 0x1C v) s = .next s ∧ hostAct (.wr 0x20 v) s = .next s

/-- R34: the host's writes while the engine is busy; a write to CMD only sets OVR. -/
def Obligations.BusyHostWritesAreLostButForStatusAndCtrl : Prop :=
  ∀ (s : State) (v : Word), s.busy = true →
    hostAct (.wr 0x00 v) s = .next { s with ovr := true } ∧
    hostAct (.wr 0x04 v) s = .next { s with done := s.done && !v.getLsbD 1, ovr := s.ovr && !v.getLsbD 5 } ∧
    hostAct (.wr 0x08 v) s = .next { s with ie := v.getLsbD 0 } ∧
    ∀ offset ∈ [0x0C, 0x10, 0x14, 0x18, 0x1C, 0x20], hostAct (.wr offset v) s = .next s

/-- R32, R35: a read returns the register's value and changes no state of the engine; an unmapped offset reads 0 and
ignores writes; a misaligned access is refused. The replies are the model's own record (assumption 4). -/
def Obligations.RegisterReadsHaveNoSideEffect : Prop :=
  ∀ (s : State) (offset : Nat) (v : Word),
    (offset % 4 = 0 → hostAct (.rd offset) s = .next { s with replies := .word (readReg s offset) :: s.replies }) ∧
    (readReg s 0x00 = s.cmd ∧ readReg s 0x0C = s.src ∧ readReg s 0x10 = s.dst ∧ readReg s 0x14 = s.len ∧
      readReg s 0x18 = s.pwa ∧ readReg s 0x1C = s.outlen ∧ readReg s 0x20 = s.errAddr) ∧
    (offset % 4 = 0 → 0x24 ≤ offset → readReg s offset = 0 ∧ hostAct (.wr offset v) s = .next s) ∧
    (offset % 4 ≠ 0 → hostAct (.rd offset) s = .refused (.registerMisaligned offset) ∧
      hostAct (.wr offset v) s = .refused (.registerMisaligned offset))

/-- R60, R61, R295: the host's MEM accesses, stores and loads alike. While busy they are refused (U3); while idle an
access inside MEM takes its effect, and so does one of no bytes at any address; one with a byte outside MEM faults at
the first address that names no byte. The refusal, the fault and the empty access beyond MEM are the model's
(assumption 10). -/
def Obligations.HostReachesMemOnlyWhileIdle : Prop :=
  ∀ (s : State) (addr : Nat) (bs : List Byte) (n : Nat),
    (s.busy = true → hostAct (.mset addr bs) s = .refused .hostMemWhileBusy ∧
      hostAct (.mget addr n) s = .refused .hostMemWhileBusy) ∧
    (s.busy = false → (bs = [] ∨ addr + bs.length ≤ s.mem.size) →
      ∃ m', hostAct (.mset addr bs) s = .next { s with mem := m' } ∧ m'.size = s.mem.size ∧
        (∀ i (h : i < bs.length), m'.byte (addr + i) = bs[i]) ∧
        ∀ x, (x < addr ∨ addr + bs.length ≤ x) → m'.byte x = s.mem.byte x) ∧
    (s.busy = false → (n = 0 ∨ addr + n ≤ s.mem.size) →
      ∃ r, hostAct (.mget addr n) s = .next { s with replies := .bytes r :: s.replies } ∧ r.length = n ∧
        ∀ i (h : i < r.length), r[i] = s.mem.byte (addr + i)) ∧
    (s.busy = false → bs ≠ [] → s.mem.size < addr + bs.length →
      hostAct (.mset addr bs) s = .fault (.hostAddressAbsent (max addr s.mem.size))) ∧
    (s.busy = false → n ≠ 0 → s.mem.size < addr + n →
      hostAct (.mget addr n) s = .fault (.hostAddressAbsent (max addr s.mem.size)))

/-- R262, R264: the interrupt line, its enable, and what raises and clears it. -/
def Obligations.InterruptFollowsDoneAndEnable : Prop :=
  (∀ s : State, irq s = ((readReg s 0x04).getLsbD 1 && (readReg s 0x08).getLsbD 0)) ∧
  (∀ (s t : State) (rest : List Turn), engineMoves s rest → s.busy = true → step s = .next t → irq t = s.ie) ∧
  (∀ (s t : State) (v : Word), s.busy = false → hostAct (.wr 0x00 v) s = .next t → irq t = false) ∧
  (∀ (s t : State), hostAct (.wr 0x04 0x00000002) s = .next t → irq t = false) ∧
  (∀ (s t : State) (v : Word), v.getLsbD 0 = false → hostAct (.wr 0x08 v) s = .next t → irq t = false) ∧
  (∀ (s : State) (b : Bool), irq { s with ovr := b } = irq s)

/-! ### Reset -/

/-- R43: the state after reset, over any memory; every register reads 0 and the interrupt output is 0. -/
def Obligations.ResetClearsTheWholeEngine : Prop :=
  ∀ (m : Mem) (offset : Nat),
    (∀ i : Fin 32, (State.afterReset m).key[i] = 0) ∧ (State.afterReset m).kv = false ∧
    (∀ (r : Fin 16) (i : Fin 256), (State.afterReset m).sbox[r][i] = 0) ∧ (State.afterReset m).sbv = false ∧
    (∀ i : Fin 4, (State.afterReset m).l[i] = 0 ∧ (State.afterReset m).r[i] = 0) ∧
    readReg (State.afterReset m) offset = 0 ∧ irq (State.afterReset m) = false ∧
    (State.afterReset m).mem = m ∧ State.reset = State.afterReset State.reset.mem

/-- R290, R291: the reset input gives the reset state over MEM. With no command in flight MEM is unchanged; a command in
flight is abandoned and MEM outside its write footprint is unchanged. Nothing is said of the footprint's bytes. -/
def Obligations.ResetInputAbandonsTheCommand : Prop :=
  ∀ (s : State) (rest : List Turn), s.agenda = .rst :: rest →
    ∃ m k, step s = .next
        { State.afterReset m with agenda := rest, replies := s.replies, freeCount := k } ∧
      m.size = s.mem.size ∧
      (s.busy = false → m = s.mem) ∧
      (∀ e, decode s.cmd = .error e → m = s.mem) ∧
      (∀ i x, decode s.cmd = .ok i →
        ¬ (s.dst.toNat ≤ x ∧ x < s.dst.toNat + (writeRange i s).count) → m.byte x = s.mem.byte x)

/-- R72, the "writes" column: the write footprint is at DST and as long as the table says; an erroring command writes
nothing. -/
def Obligations.WriteFootprintFollowsTheTable : Prop :=
  ∀ (i : Instr) (s t : State), s.mem.Legal → exec i s = .next t →
    (writeRange i s).count = storeCount i s t ∧
    ((writeRange i s).count ≠ 0 → (writeRange i s).start = s.dst.toNat)

/-- R72, the "reads" column, and R70: the effect of a command depends on MEM only through the bytes of its read
footprint: two memories that agree there give the same next state but for MEM, and the same bytes in the write
footprint. -/
def Obligations.CommandDependsOnlyOnItsReadFootprint : Prop :=
  ∀ (i : Instr) (s : State) (m' : Mem), m'.size = s.mem.size →
    (∀ rg ∈ readRanges i s, ∀ x, rg.has x → m'.byte x = s.mem.byte x) →
    ∃ t t', exec i s = .next t ∧ exec i { s with mem := m' } = .next t' ∧
      t' = { t with mem := t'.mem } ∧ writeRange i { s with mem := m' } = writeRange i s ∧
      ∀ x, ((writeRange i s).has x → x < s.mem.size → t'.mem.byte x = t.mem.byte x) ∧
        (¬ (writeRange i s).has x → t'.mem.byte x = m'.byte x)

/-- R21, "read by SBGEN only": no step but the completion of an SBGEN lets anything depend on the content of KEY. -/
def Obligations.KeyIsReadBySbgenOnly : Prop :=
  ∀ (s t : State) (k : Key), step s = .next t →
    (∀ rest, engineMoves s rest → s.busy = true → decode s.cmd ≠ .ok .sbgen) →
    ∃ t', step { s with key := k } = .next t' ∧ t' = { t with key := t'.key } ∧
      (t'.key = t.key ∨ (t.key = s.key ∧ t'.key = k))

/-! ### The pure functions -/

/-- R118: the five check values of SHA-256, one of them of two blocks. R110, R117: DeriveKey is the digest, `KEY[i] = d[i]`,
all 32 bytes of it, for every password. -/
def Obligations.Sha256GivesTheCheckValues : Prop :=
  sha256 [] =
    [0xe3, 0xb0, 0xc4, 0x42, 0x98, 0xfc, 0x1c, 0x14, 0x9a, 0xfb, 0xf4, 0xc8, 0x99, 0x6f, 0xb9, 0x24,
     0x27, 0xae, 0x41, 0xe4, 0x64, 0x9b, 0x93, 0x4c, 0xa4, 0x95, 0x99, 0x1b, 0x78, 0x52, 0xb8, 0x55] ∧
  sha256 [0x61, 0x62, 0x63] =
    [0xba, 0x78, 0x16, 0xbf, 0x8f, 0x01, 0xcf, 0xea, 0x41, 0x41, 0x40, 0xde, 0x5d, 0xae, 0x22, 0x23,
     0xb0, 0x03, 0x61, 0xa3, 0x96, 0x17, 0x7a, 0x9c, 0xb4, 0x10, 0xff, 0x61, 0xf2, 0x00, 0x15, 0xad] ∧
  sha256 [0x70, 0x61, 0x73, 0x73, 0x77, 0x6f, 0x72, 0x64] =
    [0x5e, 0x88, 0x48, 0x98, 0xda, 0x28, 0x04, 0x71, 0x51, 0xd0, 0xe5, 0x6f, 0x8d, 0xc6, 0x29, 0x27,
     0x73, 0x60, 0x3d, 0x0d, 0x6a, 0xab, 0xbd, 0xd6, 0x2a, 0x11, 0xef, 0x72, 0x1d, 0x15, 0x42, 0xd8] ∧
  sha256 (List.replicate 55 0x61) =
    [0x9f, 0x43, 0x90, 0xf8, 0xd3, 0x0c, 0x2d, 0xd9, 0x2e, 0xc9, 0xf0, 0x95, 0xb6, 0x5e, 0x2b, 0x9a,
     0xe9, 0xb0, 0xa9, 0x25, 0xa5, 0x25, 0x8e, 0x24, 0x1c, 0x9f, 0x1e, 0x91, 0x0f, 0x73, 0x43, 0x18] ∧
  sha256 (List.replicate 56 0x61) =
    [0xb3, 0x54, 0x39, 0xa4, 0xac, 0x6f, 0x09, 0x48, 0xb6, 0xd6, 0xf9, 0xe3, 0xc6, 0xaf, 0x0f, 0x5f,
     0x59, 0x0c, 0xe2, 0x0f, 0x1b, 0xde, 0x70, 0x90, 0xef, 0x79, 0x70, 0x68, 0x6e, 0xc6, 0x73, 0x8a] ∧
  ∀ pw : List Byte, (deriveKey pw).toList = sha256 pw

/-- R112: the padded message is `M ‖ 0x80 ‖ rep(0x00, z) ‖ len64` with the least `z`, a multiple of 64 long, and `len64`
is the big-endian bit length. -/
def Obligations.ShaPaddingIsTheLeastOne : Prop :=
  ∀ msg : List Byte, msg.length < 2 ^ 61 →
    ∃ z len64, shaPad msg = msg ++ [0x80] ++ List.replicate z 0 ++ len64 ∧ len64.length = 8 ∧
      (msg.length + 1 + z) % 64 = 56 ∧ (∀ y < z, (msg.length + 1 + y) % 64 ≠ 56) ∧
      (shaPad msg).length % 64 = 0 ∧
      len64.foldl (fun n b => 256 * n + b.toNat) 0 = 8 * msg.length

/-- R141: the base permutation is what 256 swaps make of the identity: swap `i` exchanges the entries at `i` and at
`j = (i + key[i mod 32]) mod 256` and touches no other. It is a bijection of 0..255, for every key. -/
def Obligations.BasePermutationIsABijection : Prop :=
  ∀ key : Key,
    (∃ p : Nat → Table, (∀ a : Fin 256, (p 0)[a] = BitVec.ofNat 8 a.val) ∧ basePermutation key = p 256 ∧
      ∀ i j : Fin 256, j.val = (i.val + key[i.val % 32].toNat) % 256 →
        (p (i.val + 1))[i] = (p i.val)[j] ∧ (p (i.val + 1))[j] = (p i.val)[i] ∧
        ∀ a : Fin 256, a ≠ i → a ≠ j → (p (i.val + 1))[a] = (p i.val)[a]) ∧
    ∀ v : Byte, ∃ i : Fin 256, (basePermutation key)[i] = v ∧ ∀ j : Fin 256, (basePermutation key)[j] = v → j = i

/-- R145, R146: the k-th source element goes to the k-th triangular number modulo 4096. -/
def Obligations.ShuffleScattersByTriangularNumbers : Prop :=
  ∀ (key : Key) (k : Nat), k < 4096 →
    (flatOf (generateSBoxSet key)).getD (k * (k + 1) / 2 % 4096) 0 = (basePermutation key)[k % 256]'(by omega)

/-- R147: for every key table 0 holds P[0] twice, so it is no permutation; over the whole set each byte value occurs
exactly 16 times. -/
def Obligations.GeneratedTablesRepeatValues : Prop :=
  ∀ key : Key,
    (generateSBoxSet key)[0][0] = (basePermutation key)[0] ∧
    (generateSBoxSet key)[0][128] = (basePermutation key)[0] ∧
    (∃ v : Byte, v ∉ (generateSBoxSet key)[0]) ∧
    ∀ v : Byte, (flatOf (generateSBoxSet key)).count v = 16

/-- R170, with the indices written as sums modulo 256. -/
def Obligations.RoundFunctionChainsTheIndex : Prop :=
  ∀ (inp : Half) (t : Table),
    (roundFunction inp t)[0] = t[inp[3].toNat % 256]'(by omega) ∧
    (roundFunction inp t)[1] = t[(inp[3].toNat + inp[2].toNat) % 256]'(by omega) ∧
    (roundFunction inp t)[2] = t[(inp[3].toNat + inp[2].toNat + inp[1].toNat) % 256]'(by omega) ∧
    (roundFunction inp t)[3] = t[(inp[3].toNat + inp[2].toNat + inp[1].toNat + inp[0].toNat) % 256]'(by omega)

/-- R181, R182, R185, for any 16 tables of 256 arbitrary bytes: Forward runs its rounds 0 to 15, round `r` with table
`r`, from the halves of the block to the halves of the result, with no final swap; Inverse runs its rounds 15 down to
0; and each undoes the other. -/
def Obligations.FeistelNetworkInvertsForAnyTables : Prop :=
  ∀ (b : Block) (ss : SBoxSet),
    (∃ l r : Nat → Half, halvesAre b (l 0) (r 0) ∧
      (∀ n : Fin 16, l (n.val + 1) = r n.val ∧
        isXor (r (n.val + 1)) (l n.val) (roundFunction (r n.val) ss[n])) ∧
      halvesAre (forward b ss) (l 16) (r 16)) ∧
    (∃ l r : Nat → Half, halvesAre b (l 16) (r 16) ∧
      (∀ n : Fin 16, r n.val = l (n.val + 1) ∧
        isXor (l n.val) (r (n.val + 1)) (roundFunction (l (n.val + 1)) ss[n])) ∧
      halvesAre (inverse b ss) (l 0) (r 0)) ∧
    inverse (forward b ss) ss = b ∧ forward (inverse b ss) ss = b

/-- R183's corner case, and R184's, which takes it over: with 16 equal constant tables the forward network and the
inverse network are the identity (V43). -/
def Obligations.ConstantTablesMakeForwardTheIdentity : Prop :=
  ∀ (c : Byte) (b : Block),
    forward b (Vector.replicate 16 (Vector.replicate 256 c)) = b ∧
    inverse b (Vector.replicate 16 (Vector.replicate 256 c)) = b

/-- R200, R201, R204: the padded length is the next multiple of 8, and unpadding undoes padding without a warning (the
spec marks the law as derived). -/
def Obligations.UnpaddingUndoesPadding : Prop :=
  ∀ x : List Byte,
    (addPadding x).length = 8 * (x.length / 8) + 8 ∧
    removePaddingLen (addPadding x) = (x.length, false) ∧
    (addPadding x).take (removePaddingLen (addPadding x)).1 = x

/-- R220: each block of the ciphertext is `Forward` of the same block of the padded plaintext under the one table set;
so equal plaintext blocks give equal ciphertext blocks (R225 item 2). -/
def Obligations.EncryptTransformsEachBlockAlone : Prop :=
  ∀ (pt pw : List Byte),
    (encrypt pt pw).length = (addPadding pt).length ∧
    ∀ k, 8 * k + 8 ≤ (encrypt pt pw).length →
      blockAt (encrypt pt pw) k = forward (blockAt (addPadding pt) k) (generateSBoxSet (deriveKey pw)) ∧
      ∀ j, 8 * j + 8 ≤ (encrypt pt pw).length → blockAt (addPadding pt) j = blockAt (addPadding pt) k →
        blockAt (encrypt pt pw) j = blockAt (encrypt pt pw) k

/-- R225 item 1, on the functions. -/
def Obligations.DecryptUndoesEncrypt : Prop :=
  ∀ (pt pw : List Byte), decrypt (encrypt pt pw) pw = (pt, false)

/-- R225 item 1, as commands: ENC, then DEC with SRC = ENC's DST, LEN = ENC's OUTLEN and the same password, writes the
plaintext and gives OUTLEN = its length, PADW = 0, ERR = 0. The password must survive ENC's store, and DEC's destination
must lie in MEM. -/
def Obligations.EncThenDecRestoresThePlaintext : Prop :=
  ∀ (s t : State) (pt pw : List Byte) (d : Word),
    s.mem.Legal → stringAt s.mem s.src pt → stringAt s.mem s.pwa pw →
    inside s.mem s.dst (pt.length + (8 - pt.length % 8)) → inside s.mem d pt.length →
    (s.pwa.toNat + pw.length < s.dst.toNat ∨ s.dst.toNat + (pt.length + (8 - pt.length % 8)) ≤ s.pwa.toNat) →
    exec .enc s = .next t →
    ∃ u, exec .dec { t with src := s.dst, len := t.outlen, dst := d } = .next u ∧
      u.err = .ok ∧ u.padw = false ∧ u.outlen.toNat = pt.length ∧ bytesLieAt u.mem d pt ∧
      ∀ x, (x < d.toNat ∨ d.toNat + pt.length ≤ x) → u.mem.byte x = t.mem.byte x

/-! ### Invariants -/

/-- R21, R22, R23, R26, R30, R31, R250 and the canonical form of MEM: every step, whoever moves, keeps the invariants. -/
def Obligations.EveryStepKeepsTheInvariants : Prop :=
  ∀ s t : State, s.Inv → step s = .next t → t.Inv

/-- The reset state satisfies the invariants, over every memory of a legal size in canonical form (R43). -/
def Obligations.ResetSatisfiesTheInvariants : Prop :=
  State.reset.Inv ∧ ∀ m : Mem, m.Legal → (State.afterReset m).Inv

/-! ### Decryption of any ciphertext -/

/-- R224, with R201 written out: each block of the padded plaintext is `Inverse` of the same block of the ciphertext
under the one table set, whoever made the ciphertext; then the last byte less 0x30, unsigned, says how many bytes go,
or, above 8, that none goes and the warning is given. -/
def Obligations.DecryptTransformsEachBlockAndStripsThePadding : Prop :=
  ∀ (ct pw : List Byte), ct ≠ [] → ct.length % 8 = 0 →
    ∃ (pp : List Byte) (c : Nat), pp.length = ct.length ∧ c = (pp.getLastD 0 - 0x30).toNat ∧
      (∀ k, 8 * k + 8 ≤ ct.length →
        blockAt pp k = inverse (blockAt ct k) (generateSBoxSet (deriveKey pw))) ∧
      (8 < c → decrypt ct pw = (pp, true)) ∧
      (c ≤ 8 → decrypt ct pw = (pp.take (ct.length - c), false))
end

