-- ==== Sys2Proof/Laws/Memory.lean ====
section
/-! SUPPORT. The laws of MEM: reading after writing, the canonical form, and what CheckRange and ScanZ answer
(spec/20_memory.md R61, R64 to R67). -/

namespace Sys2Proof.Machine

/-! ### The list of cells -/

theorem findCell_putCell (a x : Nat) (b : Byte) (cs : List Host.Cell) :
    findCell x (putCell a b cs) = if x = a then some b else findCell x cs := by
  induction cs with
  | nil => simp [putCell, findCell]
  | cons c rest ih =>
    obtain ⟨a', b'⟩ := c
    simp only [putCell]
    split
    · simp [findCell]
    · split
      · subst_vars; simp only [findCell]; split <;> simp_all
      · simp only [findCell, ih]
        by_cases hx : x = a'
        · simp [hx, Ne.symm ‹¬a = a'›]
        · simp [hx]

theorem cellsRise_mono {size lo lo' : Nat} {cs : List Host.Cell} (h : cellsRise size lo cs = true)
    (hl : lo' ≤ lo) : cellsRise size lo' cs = true := by
  cases cs with
  | nil => rfl
  | cons c rest => simp_all [cellsRise]; omega

theorem cellsRise_putCell {size lo a : Nat} {b : Byte} {cs : List Host.Cell}
    (h : cellsRise size lo cs = true) (hlo : lo ≤ a) (ha : a < size) :
    cellsRise size lo (putCell a b cs) = true := by
  induction cs generalizing lo with
  | nil => simp [putCell, cellsRise, hlo, ha]
  | cons c rest ih =>
    obtain ⟨a', b'⟩ := c
    simp only [cellsRise, Bool.and_eq_true, decide_eq_true_eq] at h
    obtain ⟨⟨h1, h2⟩, h3⟩ := h
    simp only [putCell]
    split
    · simp only [cellsRise, Bool.and_eq_true, decide_eq_true_eq]
      exact ⟨⟨hlo, ha⟩, ⟨by omega, h2⟩, h3⟩
    · split
      · subst_vars; simp [cellsRise, h1, h2, h3]
      · simp only [cellsRise, Bool.and_eq_true, decide_eq_true_eq]
        exact ⟨⟨h1, h2⟩, ih h3 (by omega)⟩

theorem findCell_below {size lo a : Nat} {cs : List Host.Cell} (h : cellsRise size lo cs = true)
    (ha : a < lo) : findCell a cs = none := by
  induction cs generalizing lo with
  | nil => rfl
  | cons c rest ih =>
    simp only [cellsRise, Bool.and_eq_true, decide_eq_true_eq] at h
    simp only [findCell]
    rw [if_neg (by omega)]
    exact ih h.2 (by omega)

/-- Two rising lists that find the same bytes are the same list. -/
theorem cells_ext {size lo : Nat} {cs ds : List Host.Cell} (hc : cellsRise size lo cs = true)
    (hd : cellsRise size lo ds = true) (h : ∀ a, findCell a cs = findCell a ds) : cs = ds := by
  induction cs generalizing lo ds with
  | nil =>
    cases ds with
    | nil => rfl
    | cons d _ => have := h d.1; simp [findCell] at this
  | cons c rest ih =>
    cases ds with
    | nil => have := h c.1; simp [findCell] at this
    | cons d rest' =>
      obtain ⟨a, b⟩ := c
      obtain ⟨a', b'⟩ := d
      simp only [cellsRise, Bool.and_eq_true, decide_eq_true_eq] at hc hd
      have haa : a = a' := by
        rcases Nat.lt_trichotomy a a' with hlt | heq | hgt
        · have := h a
          simp [findCell, show ¬ a = a' by omega, findCell_below hd.2 (show a < a' + 1 by omega)] at this
        · exact heq
        · have := h a'
          simp [findCell, show ¬ a' = a by omega, findCell_below hc.2 (show a' < a + 1 by omega)] at this
      subst haa
      have hb : b = b' := by have := h a; simpa [findCell] using this
      subst hb
      congr 1
      refine ih hc.2 hd.2 fun x => ?_
      by_cases hx : x = a
      · subst hx
        rw [findCell_below hc.2 (by omega), findCell_below hd.2 (by omega)]
      · have := h x; simpa [findCell, hx] using this

/-! ### One byte -/

@[simp] theorem writeByte_size (m : Mem) (a : Nat) (b : Byte) : (m.writeByte a b).size = m.size := by
  simp only [Mem.writeByte]; split <;> rfl

theorem writeByte_byte (m : Mem) (a x : Nat) (b : Byte) :
    (m.writeByte a b).byte x = if x = a ∧ a < m.size then b else m.byte x := by
  simp only [Mem.writeByte]
  by_cases ha : a < m.size
  · by_cases hx : x = a <;> simp [ha, hx, Mem.byte, Mem.get, findCell_putCell]
  · simp [ha]

theorem writeByte_wf {m : Mem} (h : m.wf = true) (a : Nat) (b : Byte) : (m.writeByte a b).wf = true := by
  simp only [Mem.writeByte]
  split
  · exact cellsRise_putCell h (Nat.zero_le a) ‹_›
  · exact h

/-- Canonical memories of one size that list the same bytes are equal data. -/
theorem mem_ext_get {m m' : Mem} (h : m.wf = true) (h' : m'.wf = true) (hs : m.size = m'.size)
    (hg : ∀ a, m.get a = m'.get a) : m = m' := by
  obtain ⟨size, cells⟩ := m
  obtain ⟨size', cells'⟩ := m'
  simp only at hs
  subst hs
  congr 1
  exact cells_ext h h' hg

/-! ### MemRead and MemWrite -/

@[simp] theorem memRead_length (m : Mem) (a n : Nat) : (memRead m a n).length = n := by simp [memRead]

theorem memRead_getElem (m : Mem) (a n i : Nat) (h : i < (memRead m a n).length) :
    (memRead m a n)[i] = m.byte (a + i) := by simp [memRead]

theorem memRead_getD (m : Mem) (a n i : Nat) (h : i < n) : (memRead m a n).getD i 0 = m.byte (a + i) := by
  simp [memRead, List.getD, h]

/-- A byte string whose bytes lie at `a ..` is what MemRead returns. -/
theorem memRead_eq_of_bytes {m : Mem} {a : Nat} {bs : List Byte}
    (h : ∀ i (hi : i < bs.length), m.byte (a + i) = bs[i]) : memRead m a bs.length = bs := by
  apply List.ext_getElem (by simp)
  intro i h1 h2
  rw [memRead_getElem, h i h2]

@[simp] theorem memWrite_nil (m : Mem) (a : Nat) : memWrite m a [] = m := rfl

@[simp] theorem memWrite_size (m : Mem) (a : Nat) (bs : List Byte) : (memWrite m a bs).size = m.size := by
  induction bs generalizing m a with
  | nil => rfl
  | cons b rest ih => simp [memWrite, ih]

theorem memWrite_wf {m : Mem} (h : m.wf = true) (a : Nat) (bs : List Byte) : (memWrite m a bs).wf = true := by
  induction bs generalizing m a with
  | nil => exact h
  | cons b rest ih => exact ih (writeByte_wf h a b) (a + 1)

/-- A byte outside the written range reads as before. -/
theorem memWrite_byte_outside (m : Mem) (a x : Nat) (bs : List Byte) (h : x < a ∨ a + bs.length ≤ x) :
    (memWrite m a bs).byte x = m.byte x := by
  induction bs generalizing m a with
  | nil => rfl
  | cons b rest ih =>
    simp only [List.length_cons] at h
    simp only [memWrite]
    rw [ih _ _ (by omega), writeByte_byte, if_neg (by omega)]

/-- A byte inside the written range, which lies in MEM, reads as written. -/
theorem memWrite_byte_inside (m : Mem) (a i : Nat) (bs : List Byte) (hi : i < bs.length)
    (hm : a + bs.length ≤ m.size) : (memWrite m a bs).byte (a + i) = bs[i] := by
  induction bs generalizing m a i with
  | nil => simp at hi
  | cons b rest ih =>
    simp only [List.length_cons] at hi hm
    simp only [memWrite]
    cases i with
    | zero =>
      rw [memWrite_byte_outside _ _ _ _ (by omega), writeByte_byte]
      simp; omega
    | succ j =>
      have := ih (m.writeByte a b) (a + 1) j (by omega) (by simp; omega)
      rw [show a + (j + 1) = a + 1 + j by omega, this]
      rfl

/-! ### CheckRange -/

theorem checkRange_ok {m : Mem} {a n : Nat} (h : n = 0 ∨ a + n ≤ m.size) : checkRange m a n = .ok () := by
  simp [checkRange, h]

theorem checkRange_error {m : Mem} {a n : Nat} (h : ¬ (n = 0 ∨ a + n ≤ m.size)) :
    checkRange m a n = .error (.memx (m.firstAbsent a)) := by
  rw [checkRange, if_neg h]

/-- Everything CheckRange can answer. -/
theorem checkRange_cases (m : Mem) (a n : Nat) :
    (checkRange m a n = .ok () ∧ (n = 0 ∨ a + n ≤ m.size)) ∨
    (checkRange m a n = .error (.memx (m.firstAbsent a)) ∧ n ≠ 0 ∧ m.size < a + n) := by
  by_cases h : n = 0 ∨ a + n ≤ m.size
  · exact .inl ⟨checkRange_ok h, h⟩
  · exact .inr ⟨checkRange_error h, by omega, by omega⟩

theorem size_le_firstAbsent (m : Mem) (a : Nat) : m.size ≤ m.firstAbsent a := by
  simp only [Mem.firstAbsent]; split <;> omega

/-! ### ScanZ -/

theorem scanBytes_some {m : Mem} {fuel a : Nat} {bs : List Byte} :
    scanBytes m fuel a = some bs ↔
      bs.length < fuel ∧ (∀ i (h : i < bs.length), m.byte (a + i) = bs[i] ∧ bs[i] ≠ 0) ∧
        m.byte (a + bs.length) = 0 := by
  induction fuel generalizing a bs with
  | zero => simp [scanBytes]
  | succ fuel ih =>
    simp only [scanBytes]
    by_cases h0 : m.byte a = 0
    · rw [if_pos h0]
      constructor
      · intro h
        have : bs = [] := by simpa using h.symm
        subst this; simp [h0]
      · rintro ⟨-, h2, -⟩
        cases bs with
        | nil => rfl
        | cons b rest =>
          have := h2 0 (by simp)
          simp only [Nat.add_zero, List.getElem_cons_zero] at this
          exact absurd (this.1.symm.trans h0) this.2
    · rw [if_neg h0, Option.map_eq_some_iff]
      constructor
      · rintro ⟨cs, hcs, rfl⟩
        obtain ⟨h1, h2, h3⟩ := ih.mp hcs
        refine ⟨by simpa using h1, ?_, ?_⟩
        · intro i hi
          cases i with
          | zero => exact ⟨rfl, h0⟩
          | succ j =>
            have := h2 j (by simpa using hi)
            rw [show a + (j + 1) = a + 1 + j by omega]
            simpa using this
        · rw [List.length_cons, show a + (cs.length + 1) = a + 1 + cs.length by omega]; exact h3
      · rintro ⟨h1, h2, h3⟩
        cases bs with
        | nil => exact absurd (by simpa using h3) h0
        | cons b rest =>
          refine ⟨rest, ih.mpr ⟨by simpa using h1, ?_, ?_⟩, ?_⟩
          · intro i hi
            have := h2 (i + 1) (by simpa using hi)
            rw [show a + 1 + i = a + (i + 1) by omega]
            simpa using this
          · rw [show a + 1 + rest.length = a + (rest.length + 1) by omega]; simpa using h3
          · have := h2 0 (by simp)
            simp only [Nat.add_zero, List.getElem_cons_zero] at this
            rw [this.1]

theorem scanBytes_none {m : Mem} {fuel a : Nat} :
    scanBytes m fuel a = none ↔ ∀ i < fuel, m.byte (a + i) ≠ 0 := by
  induction fuel generalizing a with
  | zero => simp [scanBytes]
  | succ fuel ih =>
    simp only [scanBytes]
    by_cases h0 : m.byte a = 0
    · rw [if_pos h0]
      simp only [reduceCtorEq, false_iff]
      intro h
      exact h 0 (by omega) (by simpa using h0)
    · rw [if_neg h0, Option.map_eq_none_iff, ih]
      constructor
      · intro h i hi
        cases i with
        | zero => simpa using h0
        | succ j => rw [show a + (j + 1) = a + 1 + j by omega]; exact h j (by omega)
      · intro h i hi
        rw [show a + 1 + i = a + (i + 1) by omega]; exact h (i + 1) (by omega)

/-- ScanZ answers the string that lies at the address before a zero byte. -/
theorem scanZ_ok {m : Mem} {a : Nat} {bs : List Byte} (hlen : a + bs.length < m.size)
    (hbs : ∀ i (h : i < bs.length), m.byte (a + i) = bs[i] ∧ bs[i] ≠ 0)
    (hz : m.byte (a + bs.length) = 0) : scanZ m a = .ok bs := by
  have : scanBytes m (m.size - a) a = some bs := scanBytes_some.mpr ⟨by omega, hbs, hz⟩
  simp [scanZ, this]

/-- ScanZ raises MEMX when no zero byte is left. -/
theorem scanZ_error {m : Mem} {a : Nat} (h : ∀ x, a ≤ x → x < m.size → m.byte x ≠ 0) :
    scanZ m a = .error (.memx (m.firstAbsent a)) := by
  have : scanBytes m (m.size - a) a = none :=
    scanBytes_none.mpr fun i hi => h (a + i) (by omega) (by omega)
  simp [scanZ, this]

/-- Everything ScanZ can answer. -/
theorem scanZ_cases (m : Mem) (a : Nat) :
    (∃ bs, scanZ m a = .ok bs ∧ a + bs.length < m.size ∧
      (∀ i (h : i < bs.length), m.byte (a + i) = bs[i] ∧ bs[i] ≠ 0) ∧ m.byte (a + bs.length) = 0) ∨
    (scanZ m a = .error (.memx (m.firstAbsent a)) ∧ ∀ x, a ≤ x → x < m.size → m.byte x ≠ 0) := by
  cases h : scanBytes m (m.size - a) a with
  | some bs =>
    obtain ⟨h1, h2, h3⟩ := scanBytes_some.mp h
    exact .inl ⟨bs, by simp [scanZ, h], by omega, h2, h3⟩
  | none =>
    refine .inr ⟨by simp [scanZ, h], fun x hx hs => ?_⟩
    have := scanBytes_none.mp h (x - a) (by omega)
    rwa [show a + (x - a) = x by omega] at this

end Sys2Proof.Machine
end

