-- ==== Sys2Proof/Laws/State.lean ====
section
/-! SUPPORT. One lemma per field per update of the state, each true by unfolding once, so that no later proof unfolds a
record update. -/

namespace Sys2Proof.Machine

/-! ### Normal completion (R254) -/

@[simp] theorem complete_key (s : State) (e : Effect) : (complete s e).key = e.key := rfl
@[simp] theorem complete_kv (s : State) (e : Effect) : (complete s e).kv = e.kv := rfl
@[simp] theorem complete_sbox (s : State) (e : Effect) : (complete s e).sbox = e.sbox := rfl
@[simp] theorem complete_sbv (s : State) (e : Effect) : (complete s e).sbv = e.sbv := rfl
@[simp] theorem complete_l (s : State) (e : Effect) : (complete s e).l = Half.zero := rfl
@[simp] theorem complete_r (s : State) (e : Effect) : (complete s e).r = Half.zero := rfl
@[simp] theorem complete_cmd (s : State) (e : Effect) : (complete s e).cmd = s.cmd := rfl
@[simp] theorem complete_busy (s : State) (e : Effect) : (complete s e).busy = false := rfl
@[simp] theorem complete_done (s : State) (e : Effect) : (complete s e).done = true := rfl
@[simp] theorem complete_padw (s : State) (e : Effect) : (complete s e).padw = e.padw := rfl
@[simp] theorem complete_ovr (s : State) (e : Effect) : (complete s e).ovr = s.ovr := rfl
@[simp] theorem complete_err (s : State) (e : Effect) : (complete s e).err = .ok := rfl
@[simp] theorem complete_ie (s : State) (e : Effect) : (complete s e).ie = s.ie := rfl
@[simp] theorem complete_src (s : State) (e : Effect) : (complete s e).src = s.src := rfl
@[simp] theorem complete_dst (s : State) (e : Effect) : (complete s e).dst = s.dst := rfl
@[simp] theorem complete_len (s : State) (e : Effect) : (complete s e).len = s.len := rfl
@[simp] theorem complete_pwa (s : State) (e : Effect) : (complete s e).pwa = s.pwa := rfl
@[simp] theorem complete_outlen (s : State) (e : Effect) : (complete s e).outlen = BitVec.ofNat 32 e.outlen := rfl
@[simp] theorem complete_errAddr (s : State) (e : Effect) : (complete s e).errAddr = 0 := rfl
@[simp] theorem complete_mem (s : State) (e : Effect) : (complete s e).mem = memWrite s.mem e.storeAddr e.storeBytes := rfl
@[simp] theorem complete_agenda (s : State) (e : Effect) : (complete s e).agenda = s.agenda := rfl
@[simp] theorem complete_replies (s : State) (e : Effect) : (complete s e).replies = s.replies := rfl
@[simp] theorem complete_freeCount (s : State) (e : Effect) : (complete s e).freeCount = s.freeCount := rfl

/-! ### Error completion (R255) -/

@[simp] theorem raise_key (s : State) (e : CmdError) : (raise s e).key = s.key := rfl
@[simp] theorem raise_kv (s : State) (e : CmdError) : (raise s e).kv = s.kv := rfl
@[simp] theorem raise_sbox (s : State) (e : CmdError) : (raise s e).sbox = s.sbox := rfl
@[simp] theorem raise_sbv (s : State) (e : CmdError) : (raise s e).sbv = s.sbv := rfl
@[simp] theorem raise_l (s : State) (e : CmdError) : (raise s e).l = Half.zero := rfl
@[simp] theorem raise_r (s : State) (e : CmdError) : (raise s e).r = Half.zero := rfl
@[simp] theorem raise_cmd (s : State) (e : CmdError) : (raise s e).cmd = s.cmd := rfl
@[simp] theorem raise_busy (s : State) (e : CmdError) : (raise s e).busy = false := rfl
@[simp] theorem raise_done (s : State) (e : CmdError) : (raise s e).done = true := rfl
@[simp] theorem raise_padw (s : State) (e : CmdError) : (raise s e).padw = false := rfl
@[simp] theorem raise_ovr (s : State) (e : CmdError) : (raise s e).ovr = s.ovr := rfl
@[simp] theorem raise_err (s : State) (e : CmdError) : (raise s e).err = e.code := rfl
@[simp] theorem raise_ie (s : State) (e : CmdError) : (raise s e).ie = s.ie := rfl
@[simp] theorem raise_src (s : State) (e : CmdError) : (raise s e).src = s.src := rfl
@[simp] theorem raise_dst (s : State) (e : CmdError) : (raise s e).dst = s.dst := rfl
@[simp] theorem raise_len (s : State) (e : CmdError) : (raise s e).len = s.len := rfl
@[simp] theorem raise_pwa (s : State) (e : CmdError) : (raise s e).pwa = s.pwa := rfl
@[simp] theorem raise_outlen (s : State) (e : CmdError) : (raise s e).outlen = 0 := rfl
@[simp] theorem raise_errAddr (s : State) (e : CmdError) : (raise s e).errAddr = e.addr := rfl
@[simp] theorem raise_mem (s : State) (e : CmdError) : (raise s e).mem = s.mem := rfl
@[simp] theorem raise_agenda (s : State) (e : CmdError) : (raise s e).agenda = s.agenda := rfl
@[simp] theorem raise_replies (s : State) (e : CmdError) : (raise s e).replies = s.replies := rfl
@[simp] theorem raise_freeCount (s : State) (e : CmdError) : (raise s e).freeCount = s.freeCount := rfl

/-! ### Accept (R26) -/

@[simp] theorem accept_key (s : State) (w : Word) : (accept s w).key = s.key := rfl
@[simp] theorem accept_kv (s : State) (w : Word) : (accept s w).kv = s.kv := rfl
@[simp] theorem accept_sbox (s : State) (w : Word) : (accept s w).sbox = s.sbox := rfl
@[simp] theorem accept_sbv (s : State) (w : Word) : (accept s w).sbv = s.sbv := rfl
@[simp] theorem accept_l (s : State) (w : Word) : (accept s w).l = s.l := rfl
@[simp] theorem accept_r (s : State) (w : Word) : (accept s w).r = s.r := rfl
@[simp] theorem accept_cmd (s : State) (w : Word) : (accept s w).cmd = w := rfl
@[simp] theorem accept_busy (s : State) (w : Word) : (accept s w).busy = true := rfl
@[simp] theorem accept_done (s : State) (w : Word) : (accept s w).done = false := rfl
@[simp] theorem accept_padw (s : State) (w : Word) : (accept s w).padw = s.padw := rfl
@[simp] theorem accept_ovr (s : State) (w : Word) : (accept s w).ovr = s.ovr := rfl
@[simp] theorem accept_err (s : State) (w : Word) : (accept s w).err = s.err := rfl
@[simp] theorem accept_ie (s : State) (w : Word) : (accept s w).ie = s.ie := rfl
@[simp] theorem accept_src (s : State) (w : Word) : (accept s w).src = s.src := rfl
@[simp] theorem accept_dst (s : State) (w : Word) : (accept s w).dst = s.dst := rfl
@[simp] theorem accept_len (s : State) (w : Word) : (accept s w).len = s.len := rfl
@[simp] theorem accept_pwa (s : State) (w : Word) : (accept s w).pwa = s.pwa := rfl
@[simp] theorem accept_outlen (s : State) (w : Word) : (accept s w).outlen = s.outlen := rfl
@[simp] theorem accept_errAddr (s : State) (w : Word) : (accept s w).errAddr = s.errAddr := rfl
@[simp] theorem accept_mem (s : State) (w : Word) : (accept s w).mem = s.mem := rfl
@[simp] theorem accept_agenda (s : State) (w : Word) : (accept s w).agenda = s.agenda := rfl
@[simp] theorem accept_replies (s : State) (w : Word) : (accept s w).replies = s.replies := rfl
@[simp] theorem accept_freeCount (s : State) (w : Word) : (accept s w).freeCount = s.freeCount := rfl

/-! ### Zeroisation (R222) -/

@[simp] theorem zeroised_key (s : State) : (s.zeroised).key = Key.zero := rfl
@[simp] theorem zeroised_kv (s : State) : (s.zeroised).kv = false := rfl
@[simp] theorem zeroised_sbox (s : State) : (s.zeroised).sbox = SBoxSet.zero := rfl
@[simp] theorem zeroised_sbv (s : State) : (s.zeroised).sbv = false := rfl
@[simp] theorem zeroised_l (s : State) : (s.zeroised).l = s.l := rfl
@[simp] theorem zeroised_r (s : State) : (s.zeroised).r = s.r := rfl
@[simp] theorem zeroised_cmd (s : State) : (s.zeroised).cmd = s.cmd := rfl
@[simp] theorem zeroised_busy (s : State) : (s.zeroised).busy = s.busy := rfl
@[simp] theorem zeroised_done (s : State) : (s.zeroised).done = s.done := rfl
@[simp] theorem zeroised_padw (s : State) : (s.zeroised).padw = s.padw := rfl
@[simp] theorem zeroised_ovr (s : State) : (s.zeroised).ovr = s.ovr := rfl
@[simp] theorem zeroised_err (s : State) : (s.zeroised).err = s.err := rfl
@[simp] theorem zeroised_ie (s : State) : (s.zeroised).ie = s.ie := rfl
@[simp] theorem zeroised_src (s : State) : (s.zeroised).src = s.src := rfl
@[simp] theorem zeroised_dst (s : State) : (s.zeroised).dst = s.dst := rfl
@[simp] theorem zeroised_len (s : State) : (s.zeroised).len = s.len := rfl
@[simp] theorem zeroised_pwa (s : State) : (s.zeroised).pwa = s.pwa := rfl
@[simp] theorem zeroised_outlen (s : State) : (s.zeroised).outlen = s.outlen := rfl
@[simp] theorem zeroised_errAddr (s : State) : (s.zeroised).errAddr = s.errAddr := rfl
@[simp] theorem zeroised_mem (s : State) : (s.zeroised).mem = s.mem := rfl
@[simp] theorem zeroised_agenda (s : State) : (s.zeroised).agenda = s.agenda := rfl
@[simp] theorem zeroised_replies (s : State) : (s.zeroised).replies = s.replies := rfl
@[simp] theorem zeroised_freeCount (s : State) : (s.zeroised).freeCount = s.freeCount := rfl

/-! ### Host writes to STATUS and CTRL (R27, R28) -/

@[simp] theorem writeStatus_key (s : State) (v : Word) : (writeStatus s v).key = s.key := rfl
@[simp] theorem writeStatus_kv (s : State) (v : Word) : (writeStatus s v).kv = s.kv := rfl
@[simp] theorem writeStatus_sbox (s : State) (v : Word) : (writeStatus s v).sbox = s.sbox := rfl
@[simp] theorem writeStatus_sbv (s : State) (v : Word) : (writeStatus s v).sbv = s.sbv := rfl
@[simp] theorem writeStatus_l (s : State) (v : Word) : (writeStatus s v).l = s.l := rfl
@[simp] theorem writeStatus_r (s : State) (v : Word) : (writeStatus s v).r = s.r := rfl
@[simp] theorem writeStatus_cmd (s : State) (v : Word) : (writeStatus s v).cmd = s.cmd := rfl
@[simp] theorem writeStatus_busy (s : State) (v : Word) : (writeStatus s v).busy = s.busy := rfl
@[simp] theorem writeStatus_done (s : State) (v : Word) : (writeStatus s v).done = (s.done && !v.getLsbD 1) := rfl
@[simp] theorem writeStatus_padw (s : State) (v : Word) : (writeStatus s v).padw = s.padw := rfl
@[simp] theorem writeStatus_ovr (s : State) (v : Word) : (writeStatus s v).ovr = (s.ovr && !v.getLsbD 5) := rfl
@[simp] theorem writeStatus_err (s : State) (v : Word) : (writeStatus s v).err = s.err := rfl
@[simp] theorem writeStatus_ie (s : State) (v : Word) : (writeStatus s v).ie = s.ie := rfl
@[simp] theorem writeStatus_src (s : State) (v : Word) : (writeStatus s v).src = s.src := rfl
@[simp] theorem writeStatus_dst (s : State) (v : Word) : (writeStatus s v).dst = s.dst := rfl
@[simp] theorem writeStatus_len (s : State) (v : Word) : (writeStatus s v).len = s.len := rfl
@[simp] theorem writeStatus_pwa (s : State) (v : Word) : (writeStatus s v).pwa = s.pwa := rfl
@[simp] theorem writeStatus_outlen (s : State) (v : Word) : (writeStatus s v).outlen = s.outlen := rfl
@[simp] theorem writeStatus_errAddr (s : State) (v : Word) : (writeStatus s v).errAddr = s.errAddr := rfl
@[simp] theorem writeStatus_mem (s : State) (v : Word) : (writeStatus s v).mem = s.mem := rfl
@[simp] theorem writeStatus_agenda (s : State) (v : Word) : (writeStatus s v).agenda = s.agenda := rfl
@[simp] theorem writeStatus_replies (s : State) (v : Word) : (writeStatus s v).replies = s.replies := rfl
@[simp] theorem writeStatus_freeCount (s : State) (v : Word) : (writeStatus s v).freeCount = s.freeCount := rfl

@[simp] theorem writeCtrl_key (s : State) (v : Word) : (writeCtrl s v).key = s.key := rfl
@[simp] theorem writeCtrl_kv (s : State) (v : Word) : (writeCtrl s v).kv = s.kv := rfl
@[simp] theorem writeCtrl_sbox (s : State) (v : Word) : (writeCtrl s v).sbox = s.sbox := rfl
@[simp] theorem writeCtrl_sbv (s : State) (v : Word) : (writeCtrl s v).sbv = s.sbv := rfl
@[simp] theorem writeCtrl_l (s : State) (v : Word) : (writeCtrl s v).l = s.l := rfl
@[simp] theorem writeCtrl_r (s : State) (v : Word) : (writeCtrl s v).r = s.r := rfl
@[simp] theorem writeCtrl_cmd (s : State) (v : Word) : (writeCtrl s v).cmd = s.cmd := rfl
@[simp] theorem writeCtrl_busy (s : State) (v : Word) : (writeCtrl s v).busy = s.busy := rfl
@[simp] theorem writeCtrl_done (s : State) (v : Word) : (writeCtrl s v).done = s.done := rfl
@[simp] theorem writeCtrl_padw (s : State) (v : Word) : (writeCtrl s v).padw = s.padw := rfl
@[simp] theorem writeCtrl_ovr (s : State) (v : Word) : (writeCtrl s v).ovr = s.ovr := rfl
@[simp] theorem writeCtrl_err (s : State) (v : Word) : (writeCtrl s v).err = s.err := rfl
@[simp] theorem writeCtrl_ie (s : State) (v : Word) : (writeCtrl s v).ie = v.getLsbD 0 := rfl
@[simp] theorem writeCtrl_src (s : State) (v : Word) : (writeCtrl s v).src = s.src := rfl
@[simp] theorem writeCtrl_dst (s : State) (v : Word) : (writeCtrl s v).dst = s.dst := rfl
@[simp] theorem writeCtrl_len (s : State) (v : Word) : (writeCtrl s v).len = s.len := rfl
@[simp] theorem writeCtrl_pwa (s : State) (v : Word) : (writeCtrl s v).pwa = s.pwa := rfl
@[simp] theorem writeCtrl_outlen (s : State) (v : Word) : (writeCtrl s v).outlen = s.outlen := rfl
@[simp] theorem writeCtrl_errAddr (s : State) (v : Word) : (writeCtrl s v).errAddr = s.errAddr := rfl
@[simp] theorem writeCtrl_mem (s : State) (v : Word) : (writeCtrl s v).mem = s.mem := rfl
@[simp] theorem writeCtrl_agenda (s : State) (v : Word) : (writeCtrl s v).agenda = s.agenda := rfl
@[simp] theorem writeCtrl_replies (s : State) (v : Word) : (writeCtrl s v).replies = s.replies := rfl
@[simp] theorem writeCtrl_freeCount (s : State) (v : Word) : (writeCtrl s v).freeCount = s.freeCount := rfl

/-! ### Reset (R43) -/

@[simp] theorem afterReset_key (m : Mem) : (State.afterReset m).key = Key.zero := rfl
@[simp] theorem afterReset_kv (m : Mem) : (State.afterReset m).kv = false := rfl
@[simp] theorem afterReset_sbox (m : Mem) : (State.afterReset m).sbox = SBoxSet.zero := rfl
@[simp] theorem afterReset_sbv (m : Mem) : (State.afterReset m).sbv = false := rfl
@[simp] theorem afterReset_l (m : Mem) : (State.afterReset m).l = Half.zero := rfl
@[simp] theorem afterReset_r (m : Mem) : (State.afterReset m).r = Half.zero := rfl
@[simp] theorem afterReset_cmd (m : Mem) : (State.afterReset m).cmd = 0 := rfl
@[simp] theorem afterReset_busy (m : Mem) : (State.afterReset m).busy = false := rfl
@[simp] theorem afterReset_done (m : Mem) : (State.afterReset m).done = false := rfl
@[simp] theorem afterReset_padw (m : Mem) : (State.afterReset m).padw = false := rfl
@[simp] theorem afterReset_ovr (m : Mem) : (State.afterReset m).ovr = false := rfl
@[simp] theorem afterReset_err (m : Mem) : (State.afterReset m).err = .ok := rfl
@[simp] theorem afterReset_ie (m : Mem) : (State.afterReset m).ie = false := rfl
@[simp] theorem afterReset_src (m : Mem) : (State.afterReset m).src = 0 := rfl
@[simp] theorem afterReset_dst (m : Mem) : (State.afterReset m).dst = 0 := rfl
@[simp] theorem afterReset_len (m : Mem) : (State.afterReset m).len = 0 := rfl
@[simp] theorem afterReset_pwa (m : Mem) : (State.afterReset m).pwa = 0 := rfl
@[simp] theorem afterReset_outlen (m : Mem) : (State.afterReset m).outlen = 0 := rfl
@[simp] theorem afterReset_errAddr (m : Mem) : (State.afterReset m).errAddr = 0 := rfl
@[simp] theorem afterReset_mem (m : Mem) : (State.afterReset m).mem = m := rfl
@[simp] theorem afterReset_agenda (m : Mem) : (State.afterReset m).agenda = [] := rfl
@[simp] theorem afterReset_replies (m : Mem) : (State.afterReset m).replies = [] := rfl
@[simp] theorem afterReset_freeCount (m : Mem) : (State.afterReset m).freeCount = 0 := rfl

/-! ### The reset input (R290, R291) -/

@[simp] theorem resetEngine_key (s : State) : (resetEngine s).key = Key.zero := rfl
@[simp] theorem resetEngine_kv (s : State) : (resetEngine s).kv = false := rfl
@[simp] theorem resetEngine_sbox (s : State) : (resetEngine s).sbox = SBoxSet.zero := rfl
@[simp] theorem resetEngine_sbv (s : State) : (resetEngine s).sbv = false := rfl
@[simp] theorem resetEngine_l (s : State) : (resetEngine s).l = Half.zero := rfl
@[simp] theorem resetEngine_r (s : State) : (resetEngine s).r = Half.zero := rfl
@[simp] theorem resetEngine_cmd (s : State) : (resetEngine s).cmd = 0 := rfl
@[simp] theorem resetEngine_busy (s : State) : (resetEngine s).busy = false := rfl
@[simp] theorem resetEngine_done (s : State) : (resetEngine s).done = false := rfl
@[simp] theorem resetEngine_padw (s : State) : (resetEngine s).padw = false := rfl
@[simp] theorem resetEngine_ovr (s : State) : (resetEngine s).ovr = false := rfl
@[simp] theorem resetEngine_err (s : State) : (resetEngine s).err = .ok := rfl
@[simp] theorem resetEngine_ie (s : State) : (resetEngine s).ie = false := rfl
@[simp] theorem resetEngine_src (s : State) : (resetEngine s).src = 0 := rfl
@[simp] theorem resetEngine_dst (s : State) : (resetEngine s).dst = 0 := rfl
@[simp] theorem resetEngine_len (s : State) : (resetEngine s).len = 0 := rfl
@[simp] theorem resetEngine_pwa (s : State) : (resetEngine s).pwa = 0 := rfl
@[simp] theorem resetEngine_outlen (s : State) : (resetEngine s).outlen = 0 := rfl
@[simp] theorem resetEngine_errAddr (s : State) : (resetEngine s).errAddr = 0 := rfl
@[simp] theorem resetEngine_mem (s : State) : (resetEngine s).mem =
    memWrite s.mem (pendingRange s).start (freshBytes s.freeCount (pendingRange s).count) := rfl
@[simp] theorem resetEngine_agenda (s : State) : (resetEngine s).agenda = s.agenda := rfl
@[simp] theorem resetEngine_replies (s : State) : (resetEngine s).replies = s.replies := rfl
@[simp] theorem resetEngine_freeCount (s : State) : (resetEngine s).freeCount = s.freeCount + (pendingRange s).count := rfl

/-! ### Effects -/

@[simp] theorem effectNone_key (s : State) : (Effect.none s).key = s.key := rfl
@[simp] theorem effectNone_kv (s : State) : (Effect.none s).kv = s.kv := rfl
@[simp] theorem effectNone_sbox (s : State) : (Effect.none s).sbox = s.sbox := rfl
@[simp] theorem effectNone_sbv (s : State) : (Effect.none s).sbv = s.sbv := rfl
@[simp] theorem effectNone_storeAddr (s : State) : (Effect.none s).storeAddr = 0 := rfl
@[simp] theorem effectNone_storeBytes (s : State) : (Effect.none s).storeBytes = [] := rfl
@[simp] theorem effectNone_outlen (s : State) : (Effect.none s).outlen = 0 := rfl
@[simp] theorem effectNone_padw (s : State) : (Effect.none s).padw = false := rfl
@[simp] theorem effectZeroised_key (e : Effect) : e.zeroised.key = Key.zero := rfl
@[simp] theorem effectZeroised_kv (e : Effect) : e.zeroised.kv = false := rfl
@[simp] theorem effectZeroised_sbox (e : Effect) : e.zeroised.sbox = SBoxSet.zero := rfl
@[simp] theorem effectZeroised_sbv (e : Effect) : e.zeroised.sbv = false := rfl
@[simp] theorem effectZeroised_storeAddr (e : Effect) : e.zeroised.storeAddr = e.storeAddr := rfl
@[simp] theorem effectZeroised_storeBytes (e : Effect) : e.zeroised.storeBytes = e.storeBytes := rfl
@[simp] theorem effectZeroised_outlen (e : Effect) : e.zeroised.outlen = e.outlen := rfl
@[simp] theorem effectZeroised_padw (e : Effect) : e.zeroised.padw = e.padw := rfl

/-! ### Completion of either kind -/

@[simp] theorem finish_ok (s : State) (e : Effect) : finish s (.ok e) = complete s e := rfl

@[simp] theorem finish_error (s : State) (e : CmdError) : finish s (.error e) = raise s e := rfl

@[simp] theorem finishZeroising_ok (s : State) (e : Effect) : finishZeroising s (.ok e) = complete s e := rfl

@[simp] theorem finishZeroising_error (s : State) (e : CmdError) :
    finishZeroising s (.error e) = raise s.zeroised e := rfl

@[simp] theorem except_bind_ok {α β : Type} (a : α) (f : α → Except CmdError β) :
    (Except.ok a >>= f) = f a := rfl

@[simp] theorem except_bind_error {α β : Type} (e : CmdError) (f : α → Except CmdError β) :
    ((Except.error e : Except CmdError α) >>= f) = Except.error e := rfl

/-- A sequence of two checks succeeds exactly when both do. -/
theorem except_bind_eq_ok {α β : Type} {x : Except CmdError α} {f : α → Except CmdError β} {b : β} :
    (x >>= f) = .ok b ↔ ∃ a, x = .ok a ∧ f a = .ok b := by
  cases x <;> simp

/-- A sequence of two checks fails exactly when the first fails, or it succeeds and the second fails. -/
theorem except_bind_eq_error {α β : Type} {x : Except CmdError α} {f : α → Except CmdError β} {e : CmdError} :
    (x >>= f) = .error e ↔ x = .error e ∨ ∃ a, x = .ok a ∧ f a = .error e := by
  cases x <;> simp

end Sys2Proof.Machine
end

