-- ==== Sys2Proof/Laws/Effects.lean ====
section
/-! SUPPORT. What the commands do, said once: every command is one effect and one completion step, the conditions under
which each effect succeeds and what it then is, and what the byte objects are. -/

namespace Sys2Proof.Machine

/-! ### One completion step -/

/-- The state whose arrays an error completion keeps: ENC and DEC zeroise first (R222, R255). -/
def errorBase (i : Instr) (s : State) : State :=
  match i with
  | .enc | .dec => s.zeroised
  | _ => s

/-- The completion step of a command. -/
def outcomeOf (i : Instr) (s : State) : State :=
  match effect i s with
  | .ok e => complete s e
  | .error err => raise (errorBase i s) err

/-- Every command takes one next state, in every state: it faults and refuses never (R259). -/
theorem exec_eq_next (i : Instr) (s : State) : exec i s = .next (outcomeOf i s) := by
  cases i <;>
    simp only [exec, outcomeOf, effect, errorBase, execNop, execKdf, execLdkey, execSbgen, execGensb, execLdsb,
      execStsb, execRndf, execFwd, execInv, execPad, execUnpad, execEnc, execDec, execZero, finish,
      finishZeroising] <;>
    rfl

/-- A completion is normal or with an error. -/
theorem outcomeOf_cases (i : Instr) (s : State) :
    (∃ e, effect i s = .ok e ∧ outcomeOf i s = complete s e) ∨
    (∃ err, effect i s = .error err ∧ outcomeOf i s = raise (errorBase i s) err) := by
  cases h : effect i s <;> simp [outcomeOf, h]

/-- What a command can do, said once. -/
theorem exec_cases {i : Instr} {s t : State} (h : exec i s = .next t) :
    (∃ e, effect i s = .ok e ∧ t = complete s e) ∨
    (∃ err, effect i s = .error err ∧ t = raise (errorBase i s) err) := by
  rw [exec_eq_next] at h
  cases h
  exact outcomeOf_cases i s

/-- A command whose effect succeeds completes normally. -/
theorem exec_of_ok {i : Instr} {s : State} {e : Effect} (h : effect i s = .ok e) :
    exec i s = .next (complete s e) := by
  rw [exec_eq_next, outcomeOf, h]

/-- A command whose effect raises an error completes with it. -/
theorem exec_of_error {i : Instr} {s : State} {err : CmdError} (h : effect i s = .error err) :
    exec i s = .next (raise (errorBase i s) err) := by
  rw [exec_eq_next, outcomeOf, h]

/-- `errorBase` is the state, zeroised or not. -/
theorem errorBase_cases (i : Instr) (s : State) : errorBase i s = s ∨ errorBase i s = s.zeroised := by
  cases i <;> simp [errorBase]

/-! ### Byte objects -/

theorem bytesAt_getElem (n : Nat) (bs : List Byte) (off i : Nat) (h : i < n) :
    (bytesAt n bs off)[i] = bs.getD (off + i) 0 := by simp [bytesAt]

theorem ofBytes_memRead_getElem (m : Mem) (a n i : Nat) (h : i < n) :
    (ofBytes n (memRead m a n))[i] = m.byte (a + i) := by
  rw [ofBytes, bytesAt_getElem _ _ _ _ h, Nat.zero_add, memRead_getD _ _ _ _ h]

/-- The object read at an address whose bytes are the object's. -/
theorem ofBytes_memRead {n : Nat} (m : Mem) (a : Nat) (v : Vector Byte n)
    (h : ∀ (i : Nat) (hi : i < n), m.byte (a + i) = v[i]) : ofBytes n (memRead m a n) = v := by
  apply Vector.ext
  intro i hi
  rw [ofBytes_memRead_getElem _ _ _ _ hi, h i hi]

/-- An object made of its own bytes. -/
theorem ofBytes_toList {n : Nat} (v : Vector Byte n) : ofBytes n v.toList = v := by
  apply Vector.ext
  intro i hi
  rw [ofBytes, bytesAt_getElem _ _ _ _ hi]
  simp [List.getD, hi]

theorem tablesOf_getElem (flat : List Byte) (r i : Nat) (hr : r < 16) (hi : i < 256) :
    (tablesOf flat)[r][i] = flat.getD (256 * r + i) 0 := by
  simp only [tablesOf, Vector.getElem_ofFn]
  exact bytesAt_getElem 256 flat (256 * r) i hi

/-! ### The effect of each command -/

@[simp] theorem effect_nop (s : State) : effect .nop s = .ok (Effect.none s) := rfl
@[simp] theorem effect_kdf (s : State) : effect .kdf s = effectKdf s := rfl
@[simp] theorem effect_ldkey (s : State) : effect .ldkey s = effectLdkey s := rfl
@[simp] theorem effect_sbgen (s : State) : effect .sbgen s = effectSbgen s := rfl
@[simp] theorem effect_gensb (s : State) : effect .gensb s = effectGensb s := rfl
@[simp] theorem effect_ldsb (s : State) : effect .ldsb s = effectLdsb s := rfl
@[simp] theorem effect_stsb (s : State) : effect .stsb s = effectStsb s := rfl
@[simp] theorem effect_fwd (s : State) : effect .fwd s = effectBlock forward s := rfl
@[simp] theorem effect_inv (s : State) : effect .inv s = effectBlock inverse s := rfl
@[simp] theorem effect_pad (s : State) : effect .pad s = effectPad s := rfl
@[simp] theorem effect_unpad (s : State) : effect .unpad s = effectUnpad s := rfl
@[simp] theorem effect_enc (s : State) : effect .enc s = effectEnc s := rfl
@[simp] theorem effect_dec (s : State) : effect .dec s = effectDec s := rfl
@[simp] theorem effect_zero (s : State) : effect .zero s = .ok (Effect.none s).zeroised := rfl
@[simp] theorem effect_rndf (rnd : BitVec 4) (s : State) : effect (.rndf rnd) s = effectRndf rnd s := rfl

theorem needKey_ok {s : State} {u : Unit} : needKey s = .ok u ↔ s.kv = true := by
  cases u; simp [needKey]

theorem needTables_ok {s : State} {u : Unit} : needTables s = .ok u ↔ s.sbv = true := by
  cases u; simp [needTables]

theorem needBlocks_ok {n : Nat} {u : Unit} : needBlocks n = .ok u ↔ n ≠ 0 ∧ n % 8 = 0 := by
  cases u; simp only [needBlocks]; split <;> simp <;> omega

theorem checkRange_ok_iff {m : Mem} {a n : Nat} {u : Unit} :
    checkRange m a n = .ok u ↔ n = 0 ∨ a + n ≤ m.size := by
  cases u; simp only [checkRange]; split <;> simp_all

theorem needKey_error {s : State} {x : CmdError} : needKey s = .error x ↔ s.kv = false ∧ x = .nokey := by
  cases h : s.kv <;> simp [needKey, h, @eq_comm CmdError _ x]

theorem needTables_error {s : State} {x : CmdError} :
    needTables s = .error x ↔ s.sbv = false ∧ x = .nosbox := by
  cases h : s.sbv <;> simp [needTables, h, @eq_comm CmdError _ x]

theorem needBlocks_error {n : Nat} {x : CmdError} :
    needBlocks n = .error x ↔ (n = 0 ∨ n % 8 ≠ 0) ∧ x = .badlen := by
  simp only [needBlocks]; split <;> simp_all [@eq_comm CmdError _ x]

theorem checkRange_error_iff {m : Mem} {a n : Nat} {x : CmdError} :
    checkRange m a n = .error x ↔ ¬ (n = 0 ∨ a + n ≤ m.size) ∧ x = .memx (m.firstAbsent a) := by
  simp only [checkRange]; split <;> simp_all [@eq_comm CmdError _ x]

theorem scanZ_error_iff {m : Mem} {a : Nat} {x : CmdError} :
    scanZ m a = .error x ↔ (∀ y, a ≤ y → y < m.size → m.byte y ≠ 0) ∧ x = .memx (m.firstAbsent a) := by
  constructor
  · intro h
    rcases scanZ_cases m a with ⟨bs, h1, -⟩ | ⟨h1, h2⟩
    · rw [h1] at h; cases h
    · rw [h1] at h; cases h; exact ⟨h2, rfl⟩
  · rintro ⟨h, rfl⟩; exact scanZ_error h

/-- KDF succeeds with a terminated password. -/
theorem effectKdf_ok {s : State} {e : Effect} : effectKdf s = .ok e ↔
    ∃ pw, scanZ s.mem s.pwa.toNat = .ok pw ∧ e = { Effect.none s with key := deriveKey pw, kv := true } := by
  simp [effectKdf, except_bind_eq_ok, operand, @eq_comm Effect _ e]

/-- LDKEY succeeds when its 32 bytes lie in MEM. -/
theorem effectLdkey_ok {s : State} {e : Effect} : effectLdkey s = .ok e ↔
    s.src.toNat + 32 ≤ s.mem.size ∧
    e = { Effect.none s with key := ofBytes 32 (memRead s.mem s.src.toNat 32), kv := true } := by
  simp [effectLdkey, except_bind_eq_ok, checkRange_ok_iff, operand, @eq_comm Effect _ e]

/-- SBGEN succeeds with a key. -/
theorem effectSbgen_ok {s : State} {e : Effect} : effectSbgen s = .ok e ↔ s.kv = true ∧
    e = { Effect.none s with key := Key.zero, kv := false, sbox := generateSBoxSet s.key, sbv := true } := by
  simp only [effectSbgen, except_bind_eq_ok, needKey_ok]
  constructor
  · rintro ⟨-, h1, h2⟩; exact ⟨h1, (Except.ok.inj h2).symm⟩
  · rintro ⟨h1, rfl⟩; exact ⟨(), h1, rfl⟩

/-- GENSB succeeds with a terminated password. -/
theorem effectGensb_ok {s : State} {e : Effect} : effectGensb s = .ok e ↔
    ∃ pw, scanZ s.mem s.pwa.toNat = .ok pw ∧
    e = { Effect.none s with
          key := Key.zero, kv := false, sbox := generateSBoxSet (deriveKey pw), sbv := true } := by
  simp [effectGensb, except_bind_eq_ok, operand, @eq_comm Effect _ e]

/-- LDSB succeeds when its 4096 bytes lie in MEM. -/
theorem effectLdsb_ok {s : State} {e : Effect} : effectLdsb s = .ok e ↔
    s.src.toNat + 4096 ≤ s.mem.size ∧
    e = { Effect.none s with sbox := tablesOf (memRead s.mem s.src.toNat 4096), sbv := true } := by
  simp [effectLdsb, except_bind_eq_ok, checkRange_ok_iff, operand, @eq_comm Effect _ e]

/-- STSB succeeds with tables and room for them. -/
theorem effectStsb_ok {s : State} {e : Effect} : effectStsb s = .ok e ↔
    s.sbv = true ∧ s.dst.toNat + 4096 ≤ s.mem.size ∧
    e = { Effect.none s with storeAddr := s.dst.toNat, storeBytes := flatOf s.sbox } := by
  simp [effectStsb, except_bind_eq_ok, needTables_ok, checkRange_ok_iff, operand, @eq_comm Effect _ e]

/-- RNDF succeeds with tables and both ranges in MEM. -/
theorem effectRndf_ok {rnd : BitVec 4} {s : State} {e : Effect} : effectRndf rnd s = .ok e ↔
    s.sbv = true ∧ s.src.toNat + 4 ≤ s.mem.size ∧ s.dst.toNat + 4 ≤ s.mem.size ∧
    e = { Effect.none s with
          storeAddr := s.dst.toNat
          storeBytes := (roundFunction (ofBytes 4 (memRead s.mem s.src.toNat 4))
            (s.sbox[rnd.toNat]'rnd.isLt)).toList } := by
  simp [effectRndf, except_bind_eq_ok, needTables_ok, checkRange_ok_iff, operand, @eq_comm Effect _ e]

/-- FWD and INV succeed with tables and both ranges in MEM. -/
theorem effectBlock_ok {f : Block → SBoxSet → Block} {s : State} {e : Effect} : effectBlock f s = .ok e ↔
    s.sbv = true ∧ s.src.toNat + 8 ≤ s.mem.size ∧ s.dst.toNat + 8 ≤ s.mem.size ∧
    e = { Effect.none s with
          storeAddr := s.dst.toNat
          storeBytes := (f (ofBytes 8 (memRead s.mem s.src.toNat 8)) s.sbox).toList } := by
  simp [effectBlock, except_bind_eq_ok, needTables_ok, checkRange_ok_iff, operand, @eq_comm Effect _ e]

/-- PAD succeeds with both ranges in MEM. -/
theorem effectPad_ok {s : State} {e : Effect} : effectPad s = .ok e ↔
    (s.len.toNat = 0 ∨ s.src.toNat + s.len.toNat ≤ s.mem.size) ∧
    s.dst.toNat + (s.len.toNat + padLen s.len.toNat) ≤ s.mem.size ∧
    e = { Effect.none s with
          storeAddr := s.dst.toNat
          storeBytes := addPadding (memRead s.mem s.src.toNat s.len.toNat)
          outlen := s.len.toNat + padLen s.len.toNat } := by
  simp only [effectPad, except_bind_eq_ok, checkRange_ok_iff, operand]
  constructor
  · rintro ⟨-, h1, -, h2, h3⟩
    refine ⟨h1, h2.resolve_left ?_, (Except.ok.inj h3).symm⟩
    simp only [padLen]; omega
  · rintro ⟨h1, h2, rfl⟩
    exact ⟨(), h1, (), .inr h2, rfl⟩

/-- UNPAD succeeds on a positive multiple of 8 bytes in MEM. -/
theorem effectUnpad_ok {s : State} {e : Effect} : effectUnpad s = .ok e ↔
    s.len.toNat ≠ 0 ∧ s.len.toNat % 8 = 0 ∧ s.src.toNat + s.len.toNat ≤ s.mem.size ∧
    e = { Effect.none s with
          outlen := (removePaddingLen (memRead s.mem s.src.toNat s.len.toNat)).1
          padw := (removePaddingLen (memRead s.mem s.src.toNat s.len.toNat)).2 } := by
  simp only [effectUnpad, except_bind_eq_ok, needBlocks_ok, checkRange_ok_iff, operand]
  constructor
  · rintro ⟨-, ⟨h1, h2⟩, -, h3, h4⟩
    exact ⟨h1, h2, h3.resolve_left h1, (Except.ok.inj h4).symm⟩
  · rintro ⟨h1, h2, h3, rfl⟩
    exact ⟨(), ⟨h1, h2⟩, (), .inr h3, rfl⟩

/-- ENC succeeds with both strings terminated and room for the ciphertext. -/
theorem effectEnc_ok {s : State} {e : Effect} : effectEnc s = .ok e ↔
    ∃ pt pw, scanZ s.mem s.src.toNat = .ok pt ∧ scanZ s.mem s.pwa.toNat = .ok pw ∧
      s.dst.toNat + (pt.length + padLen pt.length) ≤ s.mem.size ∧
      e = { (Effect.none s).zeroised with
            storeAddr := s.dst.toNat
            storeBytes := encrypt pt pw
            outlen := pt.length + padLen pt.length } := by
  simp only [effectEnc, except_bind_eq_ok, checkRange_ok_iff, operand]
  constructor
  · rintro ⟨pt, h1, pw, h2, -, h3, h4⟩
    refine ⟨pt, pw, h1, h2, h3.resolve_left ?_, (Except.ok.inj h4).symm⟩
    simp only [padLen]; omega
  · rintro ⟨pt, pw, h1, h2, h3, rfl⟩
    exact ⟨pt, h1, pw, h2, (), .inr h3, rfl⟩

/-- DEC succeeds on a positive multiple of 8 bytes in MEM, with a terminated password and room for the plaintext. -/
theorem effectDec_ok {s : State} {e : Effect} : effectDec s = .ok e ↔
    s.len.toNat ≠ 0 ∧ s.len.toNat % 8 = 0 ∧
    ∃ pw, scanZ s.mem s.pwa.toNat = .ok pw ∧ s.src.toNat + s.len.toNat ≤ s.mem.size ∧
      ((decrypt (memRead s.mem s.src.toNat s.len.toNat) pw).1.length = 0 ∨
        s.dst.toNat + (decrypt (memRead s.mem s.src.toNat s.len.toNat) pw).1.length ≤ s.mem.size) ∧
      e = { (Effect.none s).zeroised with
            storeAddr := s.dst.toNat
            storeBytes := (decrypt (memRead s.mem s.src.toNat s.len.toNat) pw).1
            outlen := (decrypt (memRead s.mem s.src.toNat s.len.toNat) pw).1.length
            padw := (decrypt (memRead s.mem s.src.toNat s.len.toNat) pw).2 } := by
  simp only [effectDec, except_bind_eq_ok, needBlocks_ok, checkRange_ok_iff, operand]
  constructor
  · rintro ⟨-, ⟨h1, h2⟩, pw, h3, -, h4, -, h5, h6⟩
    exact ⟨h1, h2, pw, h3, h4.resolve_left h1, h5, (Except.ok.inj h6).symm⟩
  · rintro ⟨h1, h2, pw, h3, h4, h5, rfl⟩
    exact ⟨(), ⟨h1, h2⟩, pw, h3, (), .inr h4, (), h5, rfl⟩

end Sys2Proof.Machine
end

