-- ==== Sys2Proof/Laws/Shuffle.lean ====
section
/-! SUPPORT. The laws of the S-box generator: the swaps permute, the cursor of the shuffle is injective, and where each
source element lands (spec/41_sbox_generator.md R141 to R148). -/

namespace Sys2Proof.Machine

/-- The flat view has 4096 bytes (R22). -/
theorem flatOf_length (ss : SBoxSet) : (flatOf ss).length = 4096 := by
  simp [flatOf, List.length_flatMap]

/-- An element of a concatenation of equally long objects. -/
theorem flatMap_toList_getElem {n : Nat} : ∀ (l : List (Vector Byte n)) (r i : Nat) (hr : r < l.length) (hi : i < n),
    (l.flatMap Vector.toList)[n * r + i]? = some (l[r])[i] := by
  intro l
  induction l with
  | nil => intro r i hr; simp at hr
  | cons v rest ih =>
    intro r i hr hi
    cases r with
    | zero => simp [List.getElem?_append_left, hi]
    | succ r =>
      rw [List.flatMap_cons, List.getElem?_append_right (by simp; nlinarith)]
      have := ih r i (by simpa using hr) hi
      simp only [Vector.length_toList, List.getElem_cons_succ]
      rw [← this]; congr 1; rw [Nat.mul_succ]; omega

/-- `SB[256*r + i] = SBOX[r][i]` (R22). -/
theorem flatOf_getElem (ss : SBoxSet) (r i : Nat) (hr : r < 16) (hi : i < 256) :
    (flatOf ss)[256 * r + i]? = some ss[r][i] := by
  rw [flatOf, flatMap_toList_getElem _ _ _ (by simpa using hr) hi]; simp

/-- The states a loop over 0 .. n-1 goes through, from the first to the last. -/
theorem foldl_finRange_steps {α : Type} {n : Nat} (f : α → Fin n → α) (a : α) : ∃ p : Nat → α, p 0 = a ∧
    (∀ i : Fin n, p (i.val + 1) = f (p i.val) i) ∧ p n = (List.finRange n).foldl f a := by
  refine ⟨fun k => ((List.finRange n).take k).foldl f a, by simp, fun i => ?_, ?_⟩
  · have : (List.finRange n).take (i.val + 1) = (List.finRange n).take i.val ++ [i] := by
      rw [List.take_succ_eq_append_getElem (by simp)]; simp
    simp only [this, List.foldl_append, List.foldl_cons, List.foldl_nil]
  · simp only []; rw [List.take_of_length_le (by simp)]

/-- The states a loop over n-1 .. 0 goes through. -/
theorem foldl_reverse_finRange_steps {α : Type} {n : Nat} (f : α → Fin n → α) (a : α) : ∃ p : Nat → α, p n = a ∧
    (∀ i : Fin n, p i.val = f (p (i.val + 1)) i) ∧ p 0 = (List.finRange n).reverse.foldl f a := by
  refine ⟨fun k => ((List.finRange n).drop k).foldr (fun r x => f x r) a, ?_, fun i => ?_, ?_⟩
  · simp only []; rw [List.drop_eq_nil_of_le (by simp)]; rfl
  · have : (List.finRange n).drop i.val = i :: (List.finRange n).drop (i.val + 1) := by
      rw [List.drop_eq_getElem_cons (by simp)]; simp
    simp only [this, List.foldr_cons]
  · simp [List.foldl_reverse]

/-- The swaps permute the entries (R141). -/
theorem swapStep_foldl_perm (key : Key) :
    ∀ (l : List (Fin 256)) (p : Table), (l.foldl (swapStep key) p).toList.Perm p.toList := by
  intro l; induction l with
  | nil => intro p; exact List.Perm.refl _
  | cons i l ih =>
    intro p
    refine (ih _).trans ?_
    have := Vector.swap_perm (xs := p) (i := i.val) (j := (i.val + key[i.val % 32].toNat) % 256) (by omega) (by omega)
    exact Vector.perm_iff_toList_perm.mp this

theorem identityTable_toList : identityTable.toList = (List.range 256).map (BitVec.ofNat 8) := by
  apply List.ext_getElem
  · simp
  · intro i h1 h2
    simp only [identityTable, Vector.getElem_toList, Vector.getElem_ofFn, List.getElem_map, List.getElem_range]

/-- The base permutation holds the 256 byte values in some order (R141). -/
theorem basePermutation_perm (key : Key) :
    (basePermutation key).toList.Perm ((List.range 256).map (BitVec.ofNat 8)) := by
  rw [← identityTable_toList]; exact swapStep_foldl_perm key _ _

/-- The k-th triangular number, the cursor of R145 before its reduction modulo 4096. -/
def triangular (k : Nat) : Nat := k * (k + 1) / 2

theorem two_mul_triangular (k : Nat) : 2 * triangular k = k * (k + 1) := by
  simp only [triangular]
  exact Nat.mul_div_cancel' (Nat.even_mul_succ_self k).two_dvd

theorem triangular_succ (k : Nat) : triangular (k + 1) = triangular k + (k + 1) := by
  have h1 := two_mul_triangular k; have h2 := two_mul_triangular (k+1)
  nlinarith

/-- The cursor never visits a position twice (R145). -/
theorem triangular_injective {a b : Nat} (ha : a < 4096) (hb : b < 4096)
    (h : triangular a % 4096 = triangular b % 4096) : a = b := by
  wlog hab : b ≤ a with H
  · exact (H hb ha h.symm (by omega)).symm
  by_contra hne
  have h1 := two_mul_triangular a; have h2 := two_mul_triangular b
  have hd : 8192 ∣ (a - b) * (a + b + 1) := by
    obtain ⟨c, rfl⟩ := Nat.exists_eq_add_of_le hab
    have e1 : (b + c - b) * (b + c + b + 1) = 2 * triangular (b + c) - 2 * triangular b := by
      rw [h1, h2, Nat.add_sub_cancel_left]
      symm; apply Nat.sub_eq_of_eq_add; ring
    rw [e1]
    have : triangular b ≤ triangular (b+c) := by nlinarith
    omega
  have h2p : (8192 : Nat) = 2 ^ 13 := by norm_num
  rw [h2p] at hd
  by_cases hp : (a - b) % 2 = 0
  · have hc : Nat.Coprime (2 ^ 13) (a + b + 1) := by
      apply Nat.Coprime.pow_left; rw [Nat.coprime_two_left, Nat.odd_iff]; omega
    have := Nat.le_of_dvd (by omega) (hc.dvd_of_dvd_mul_right hd)
    omega
  · have hc : Nat.Coprime (2 ^ 13) (a - b) := by
      apply Nat.Coprime.pow_left; rw [Nat.coprime_two_left, Nat.odd_iff]; omega
    have := Nat.le_of_dvd (by omega) (hc.dvd_of_dvd_mul_left hd)
    omega

theorem placeAll_length (n) : ∀ (src out c sh), (placeAll n src out c sh).length = out.length := by
  intro src; induction src with
  | nil => intros; rfl
  | cons b rest ih => intro out c sh; simp only [placeAll]; rw [ih]; simp

/-- What the placements from the k-th on leave at each position (R144, R145). -/
theorem placeAll_getD : ∀ (src out : List Byte) (k : Nat), k + src.length = 4096 → out.length = 4096 →
    (∀ x, (∀ j < src.length, triangular (k + j) % 4096 ≠ x) →
      (placeAll 4096 src out (triangular k % 4096) (k + 1)).getD x 0 = out.getD x 0) ∧
    (∀ j (hj : j < src.length),
      (placeAll 4096 src out (triangular k % 4096) (k + 1)).getD (triangular (k + j) % 4096) 0 = src[j]) := by
  intro src; induction src with
  | nil => intro out k hk ho; exact ⟨fun x _ => rfl, fun j hj => by simp at hj⟩
  | cons b rest ih =>
    intro out k hk ho
    simp only [List.length_cons] at hk
    cases hr : rest with
    | nil =>
      subst hr
      refine ⟨fun x hx => ?_, fun j hj => ?_⟩
      · have := hx 0 (by simp)
        simp only [placeAll, List.getD]; rw [List.getElem?_set_ne (by simpa using this)]
      · have : j = 0 := by simp at hj; omega
        subst this
        have : triangular k % 4096 < out.length := by omega
        simp [placeAll, List.getD, this]
    | cons b2 rest2 =>
      rw [← hr]
      have hk2 : (k + 1) + 1 < 4096 + 1 := by rw [hr, List.length_cons] at hk; omega
      have hs : (if k + 1 + 1 = 4096 then 1 else k + 1 + 1) = k + 1 + 1 ∨ k + 1 + 1 = 4096 := by
        by_cases h : k + 1 + 1 = 4096
        · exact .inr h
        · exact .inl (by rw [if_neg h])
      have hcur : (triangular k % 4096 + (k + 1)) % 4096 = triangular (k + 1) % 4096 := by rw [triangular_succ]; omega
      have key : placeAll 4096 (b :: rest) out (triangular k % 4096) (k + 1) =
          placeAll 4096 rest (out.set (triangular k % 4096) b) (triangular (k + 1) % 4096) (k + 1 + 1) := by
        simp only [placeAll, hcur]
        rcases hs with hs | hs
        · rw [hs]
        · have : rest.length = 1 := by omega
          obtain ⟨c, hc⟩ := List.length_eq_one_iff.mp this
          rw [hc]; simp [placeAll]
      rw [key]
      obtain ⟨h1, h2⟩ := ih (out.set (triangular k % 4096) b) (k + 1) (by omega) (by simpa using ho)
      refine ⟨fun x hx => ?_, fun j hj => ?_⟩
      · rw [h1 x (fun j hj => by have := hx (j+1) (by simp; omega); rwa [show k + (j+1) = k + 1 + j by omega] at this)]
        have := hx 0 (by simp)
        simp only [List.getD]; rw [List.getElem?_set_ne (by simpa using this)]
      · cases j with
        | zero =>
          rw [Nat.add_zero, h1 _ (fun j hj h => by have := triangular_injective (by omega) (by omega) h; omega)]
          have : triangular k % 4096 < out.length := by omega
          simp [List.getD, this]
        | succ j =>
          have := h2 j (by simp at hj; omega)
          rw [show k + (j+1) = k + 1 + j by omega, this]; rfl

/-- The shuffle puts the k-th source element at the k-th cursor position (R145). -/
theorem roundRobinShuffle_getD (src : List Byte) (h : src.length = 4096) (k : Nat) (hk : k < 4096) :
   (roundRobinShuffle src).getD (triangular k % 4096) 0 = src[k] := by
  have := (placeAll_getD src (List.replicate src.length 0) 0 (by omega)
    (by rw [List.length_replicate, h])).2 k (by omega)
  rw [Nat.zero_add k] at this
  have e : roundRobinShuffle src =
      placeAll 4096 src (List.replicate src.length 0) (triangular 0 % 4096) (0 + 1) := by
    rw [roundRobinShuffle, h]; rfl
  rw [e, this]

theorem roundRobinShuffle_length (src : List Byte) : (roundRobinShuffle src).length = src.length := by
  simp [roundRobinShuffle, placeAll_length]

/-- Splitting a flat string and taking the flat view gives the string back (R148). -/
theorem flatOf_tablesOf (o : List Byte) (h : o.length = 4096) : flatOf (tablesOf o) = o := by
  apply List.ext_getElem?
  intro n
  by_cases hn : n < 4096
  · have e : n = 256 * (n / 256) + n % 256 := by omega
    rw [e, flatOf_getElem _ _ _ (by omega) (by omega), tablesOf_getElem _ _ _ (by omega) (by omega), ← e]
    simp [List.getD, h, hn]
  · rw [List.getElem?_eq_none, List.getElem?_eq_none] <;> (try rw [flatOf_length]) <;> omega

theorem replicateTable_length (p) : (replicateTable p).length = 4096 := by simp [replicateTable, Config.shuffleLen]

/-- `S[k] = P[k mod 256]` (R143). -/
theorem replicateTable_getElem (p : Table) (k : Nat) (hk : k < 4096) :
    (replicateTable p)[k]'(by rw [replicateTable_length]; exact hk) = p[k % 256]'(by omega) := by
  simp [replicateTable, List.getD, show k % 256 < 256 by omega]

theorem flatOf_generateSBoxSet (key : Key) :
    flatOf (generateSBoxSet key) = roundRobinShuffle (replicateTable (basePermutation key)) := by
  rw [generateSBoxSet, flatOf_tablesOf _ (by rw [roundRobinShuffle_length, replicateTable_length])]

end Sys2Proof.Machine
end

