-- ==== Sys2Proof/Laws/Blocks.lean ====
section
/-! SUPPORT. The laws of blocks: the rounds of the Feistel network undo each other, a block is its halves, and what the
padding and the block-by-block map do to lengths and blocks (spec/43_feistel_network.md R180 to R185,
spec/44_padding_codec.md R200, R201, spec/45_cipher_engine.md R220, R224). -/

namespace Sys2Proof.Machine

theorem xorHalf_self (x y : Half) : xorHalf (xorHalf x y) y = x := by
  apply Vector.ext; intro i hi; simp [xorHalf]

/-- An inverse round undoes the forward round with the same table (R185). -/
theorem inverseRound_forwardRound (ss r lr) : inverseRound ss (forwardRound ss lr r) r = lr := by
  obtain ⟨l, rr⟩ := lr; simp [inverseRound, forwardRound, xorHalf_self]

/-- A forward round undoes the inverse round with the same table (R185). -/
theorem forwardRound_inverseRound (ss r lr) : forwardRound ss (inverseRound ss lr r) r = lr := by
  obtain ⟨l, rr⟩ := lr; simp [inverseRound, forwardRound, xorHalf_self]

/-- Steps undone in the opposite order. -/
theorem foldl_reverse_cancel {α β : Type} (f g : α → β → α) (h : ∀ a b, g (f a b) b = a) :
    ∀ (l : List β) (a : α), l.reverse.foldl g (l.foldl f a) = a := by
  intro l; induction l with
  | nil => simp
  | cons x l ih => intro a; simp only [List.foldl_cons, List.reverse_cons, List.foldl_append, List.foldl_nil, ih, h]

theorem joinHalves_getElem_left (l r : Half) (i : Nat) (hi : i < 4) : (joinHalves l r)[i] = l[i] :=
  Vector.getElem_append_left (xs := l) (ys := r) hi

theorem joinHalves_getElem_right (l r : Half) (i : Nat) (hi : i < 4) : (joinHalves l r)[4 + i] = r[i] := by
  have := Vector.getElem_append_right (xs := l) (ys := r) (i := 4 + i) (by omega) (by omega)
  simp only [Nat.add_sub_cancel_left] at this
  exact this

theorem splitBlock_joinBlock (lr) : splitBlock (joinBlock lr) = lr := by
  obtain ⟨l, r⟩ := lr
  simp only [splitBlock, joinBlock]
  congr 1
  · apply Vector.ext; intro i hi
    simp only [leftHalf, Vector.getElem_ofFn, joinHalves_getElem_left _ _ _ hi]
  · apply Vector.ext; intro i hi
    simp only [rightHalf, Vector.getElem_ofFn, joinHalves_getElem_right _ _ _ hi]

theorem joinBlock_splitBlock (b) : joinBlock (splitBlock b) = b := by
  simp only [splitBlock, joinBlock, joinHalves]
  apply Vector.ext; intro i hi; simp only [Vector.getElem_append, leftHalf, rightHalf, Vector.getElem_ofFn]
  split
  · rfl
  · congr 1; omega

/-- `len(AddPadding(x)) = 8 * (n div 8) + 8` (R200). -/
theorem addPadding_length (x : List Byte) : (addPadding x).length = 8 * (x.length / 8) + 8 := by
  simp only [addPadding, padLen, List.length_append, List.length_replicate]; omega

theorem removePaddingLen_bounds (y : List Byte) :
    (removePaddingLen y).1 ≤ y.length ∧ y.length ≤ (removePaddingLen y).1 + 8 := by
  simp only [removePaddingLen]
  generalize (y.getLastD 0 - Config.padBase).toNat = c
  split
  · exact ⟨le_refl _, by simp⟩
  · exact ⟨by simp, by simp; omega⟩

/-- A candidate above 8: nothing is removed, and the warning is given (R201). -/
theorem removePaddingLen_of_gt {y : List Byte} (h : 8 < (y.getLastD 0 - 0x30).toNat) :
    removePaddingLen y = (y.length, true) := if_pos h

/-- A candidate of at most 8: so many bytes are removed (R201). -/
theorem removePaddingLen_of_le {y : List Byte} (h : (y.getLastD 0 - 0x30).toNat ≤ 8) :
    removePaddingLen y = (y.length - (y.getLastD 0 - 0x30).toNat, false) := if_neg (Nat.not_lt.mpr h)

theorem mapBlocks_length (f : Block → Block) (bs : List Byte) : (mapBlocks f bs).length = 8 * (bs.length / 8) := by
  simp [mapBlocks, List.length_flatMap, Nat.mul_comm]

/-- `len(Encrypt(pt, pw)) = len(AddPadding(pt))` (R220). -/
theorem encrypt_length (pt pw : List Byte) : (encrypt pt pw).length = (addPadding pt).length := by
  simp only [encrypt, mapBlocks_length, addPadding_length]; omega

/-- The plaintext is at most 8 bytes shorter than the ciphertext (R223). -/
theorem decrypt_length (ct pw : List Byte) (h : ct.length % 8 = 0) :
    (decrypt ct pw).1.length ≤ ct.length ∧ ct.length ≤ (decrypt ct pw).1.length + 8 := by
  have hl : (mapBlocks (fun b => inverse b (generateSBoxSet (deriveKey pw))) ct).length = ct.length := by
    rw [mapBlocks_length]; omega
  have := removePaddingLen_bounds (mapBlocks (fun b => inverse b (generateSBoxSet (deriveKey pw))) ct)
  simp only [decrypt, List.length_take, hl] at *
  omega

theorem mapBlocks_getElem (f : Block → Block) (bs : List Byte) (k i : Nat) (hk : 8 * k + 8 ≤ bs.length) (hi : i < 8) :
    (mapBlocks f bs)[8 * k + i]? = some (f (blockAt bs k))[i] := by
  have : mapBlocks f bs = ((List.range (bs.length / 8)).map fun k => f (blockAt bs k)).flatMap Vector.toList := by
    simp [mapBlocks, List.flatMap_map]
  rw [this, flatMap_toList_getElem _ _ _ (by simp; omega) hi]; simp

/-- Block k of the result is `f` of block k (R220). -/
theorem blockAt_mapBlocks (f : Block → Block) (bs : List Byte) (k : Nat) (hk : 8 * k + 8 ≤ bs.length) :
   blockAt (mapBlocks f bs) k = f (blockAt bs k) := by
  apply Vector.ext; intro i hi
  rw [blockAt, bytesAt_getElem _ _ _ _ hi, List.getD, mapBlocks_getElem f bs k i hk hi]; rfl

end Sys2Proof.Machine
end

