-- ==== Sys2Proof/Laws/Encoding.lean ====
section
/-! SUPPORT. The fields of a command word as natural numbers: taking a word apart and putting it together are inverse
(spec/30_encoding.md R90, R91). -/

namespace Sys2Proof

/-- The word is `4096 * zero + 256 * rnd + op` (R91). -/
theorem Fields.word_toNat (f : Fields) :
    f.word.toNat = 4096 * f.zero.toNat + 256 * f.rnd.toNat + f.op.toNat := by
  have h1 := f.rnd.isLt
  have h2 := f.op.isLt
  have h3 : f.zero.toNat <<< 4 + f.rnd.toNat = f.zero.toNat <<< 4 ||| f.rnd.toNat :=
    Nat.shiftLeft_add_eq_or_of_lt h1 _
  have h4 := Nat.shiftLeft_add_eq_or_of_lt h2 (f.zero.toNat <<< 4 + f.rnd.toNat)
  rw [Fields.word, BitVec.toNat_append, BitVec.toNat_append, ← h3, ← h4]
  simp only [Nat.shiftLeft_eq]
  omega

theorem fieldsOf_zero_toNat (w : Word) : (fieldsOf w).zero.toNat = w.toNat / 4096 := by
  have := w.isLt
  simp only [fieldsOf, BitVec.extractLsb'_toNat, Nat.shiftRight_eq_div_pow]
  omega

theorem fieldsOf_rnd_toNat (w : Word) : (fieldsOf w).rnd.toNat = w.toNat / 256 % 16 := by
  simp only [fieldsOf, BitVec.extractLsb'_toNat, Nat.shiftRight_eq_div_pow]

theorem fieldsOf_op_toNat (w : Word) : (fieldsOf w).op.toNat = w.toNat % 256 := by
  simp only [fieldsOf, BitVec.extractLsb'_toNat, Nat.shiftRight_eq_div_pow, Nat.pow_zero, Nat.div_one]

/-- The fields of a word put together are the word. -/
theorem word_fieldsOf (w : Word) : (fieldsOf w).word = w := by
  apply BitVec.eq_of_toNat_eq
  rw [Fields.word_toNat, fieldsOf_zero_toNat, fieldsOf_rnd_toNat, fieldsOf_op_toNat]
  omega

/-- The fields of a word made of fields are those fields. -/
theorem fieldsOf_word (f : Fields) : fieldsOf f.word = f := by
  have h1 := f.rnd.isLt
  have h2 := f.op.isLt
  have h0 := f.zero.isLt
  obtain ⟨z, r, o⟩ := f
  have hz : (fieldsOf (Fields.word ⟨z, r, o⟩)).zero = z := by
    apply BitVec.eq_of_toNat_eq; rw [fieldsOf_zero_toNat, Fields.word_toNat]; simp only at *; omega
  have hr : (fieldsOf (Fields.word ⟨z, r, o⟩)).rnd = r := by
    apply BitVec.eq_of_toNat_eq; rw [fieldsOf_rnd_toNat, Fields.word_toNat]; simp only at *; omega
  have ho : (fieldsOf (Fields.word ⟨z, r, o⟩)).op = o := by
    apply BitVec.eq_of_toNat_eq; rw [fieldsOf_op_toNat, Fields.word_toNat]; simp only at *; omega
  cases h : fieldsOf (Fields.word ⟨z, r, o⟩)
  simp_all

/-- The format-Z command of an opcode has that opcode. -/
theorem commandZ_fields : ∀ op : BitVec 8, ∀ i, commandZ op = some i → i.fields = ⟨0, 0, op⟩ := by
  intro op i h
  unfold commandZ at h
  have : op = BitVec.ofNat 8 op.toNat := by simp
  split at h <;> first | (cases h; rename_i hop; rw [hop] at this; subst this; rfl) | cases h

theorem commandZ_none : ∀ op : BitVec 8, commandZ op = none ↔ (op = 7 ∨ 0x0E < op.toNat) := by decide

/-- Decoding by the fields of a word (R93). -/
theorem decode_ok_iff (w : Word) (i : Instr) : decode w = .ok i ↔ fieldsOf w = i.fields := by
  simp only [decode]
  obtain ⟨z, r, o⟩ := fieldsOf w
  simp only
  by_cases hz : z = 0
  · subst hz
    simp only [ne_eq, not_true_eq_false, if_false]
    by_cases ho : o = 7
    · subst ho
      simp only [if_true]
      constructor
      · intro h; cases h; rfl
      · intro h; cases i <;> simp_all [Instr.fields, Fields.formatZ, Fields.formatR]
    · simp only [ho, if_false]
      cases hc : commandZ o with
      | none =>
        simp only [reduceCtorEq, false_iff]
        intro h
        rcases (commandZ_none o).mp hc with h' | h'
        · exact ho h'
        · cases i <;> simp_all [Instr.fields, Fields.formatZ, Fields.formatR]
      | some j =>
        have hj := commandZ_fields o j hc
        simp only
        constructor
        · intro h; split at h
          · cases h; rename_i hr; rw [hj, hr]
          · cases h
        · intro h
          have hr : r = 0 ∧ j = i := by
            cases i <;> simp_all [Instr.fields, Fields.formatZ, Fields.formatR] <;>
              (obtain ⟨rfl, rfl⟩ := h; simpa [commandZ, eq_comm] using hc)
          simp [hr]
  · simp only [ne_eq, hz, not_false_eq_true, if_true, reduceCtorEq, false_iff]
    intro h; apply hz
    cases i <;> simp_all [Instr.fields, Fields.formatZ, Fields.formatR]

end Sys2Proof
end

