-- ==== Sys2Proof/Laws/PerInstr.lean ====
section
/-! SUPPORT. The statements made of every command as syntax, one lemma per constructor. -/

namespace Sys2Proof.Laws.FieldsLegal

/-- A command's fields are legal, and its command word carries exactly them (spec/30_encoding.md R90, R91, R96). -/
def Statement (i : Instr) : Prop := i.wf = true ∧ fieldsOf (encode i) = i.fields

theorem nop : Statement .nop := ⟨by decide, fieldsOf_word _⟩
theorem kdf : Statement .kdf := ⟨by decide, fieldsOf_word _⟩
theorem ldkey : Statement .ldkey := ⟨by decide, fieldsOf_word _⟩
theorem sbgen : Statement .sbgen := ⟨by decide, fieldsOf_word _⟩
theorem gensb : Statement .gensb := ⟨by decide, fieldsOf_word _⟩
theorem ldsb : Statement .ldsb := ⟨by decide, fieldsOf_word _⟩
theorem stsb : Statement .stsb := ⟨by decide, fieldsOf_word _⟩
theorem rndf (rnd : BitVec 4) : Statement (.rndf rnd) := ⟨by revert rnd; decide, fieldsOf_word _⟩
theorem fwd : Statement .fwd := ⟨by decide, fieldsOf_word _⟩
theorem inv : Statement .inv := ⟨by decide, fieldsOf_word _⟩
theorem pad : Statement .pad := ⟨by decide, fieldsOf_word _⟩
theorem unpad : Statement .unpad := ⟨by decide, fieldsOf_word _⟩
theorem enc : Statement .enc := ⟨by decide, fieldsOf_word _⟩
theorem dec : Statement .dec := ⟨by decide, fieldsOf_word _⟩
theorem zero : Statement .zero := ⟨by decide, fieldsOf_word _⟩

end Sys2Proof.Laws.FieldsLegal
end

