-- ==== Sys2Proof/Laws/Step.lean ====
section
/-! SUPPORT. What a step can do, said once: who moves, what each host action answers, and what the completion step of a
command keeps (spec/20_memory.md R70; spec/60_exceptions.md R254, R255). -/

namespace Sys2Proof.Machine

/-! ### Whose turn it is -/

theorem nextTurn_nil {s : State} (h : s.agenda = []) : nextTurn s = (.engine, s) := by
  simp only [nextTurn, h]

theorem nextTurn_cons {s : State} {x : Turn} {rest : List Turn} (h : s.agenda = x :: rest) :
    nextTurn s = (x, { s with agenda := rest }) := by
  simp only [nextTurn, h]

/-- The state a turn is taken in is the state with another agenda. -/
theorem nextTurn_snd (s : State) : ∃ rest, (nextTurn s).2 = { s with agenda := rest } := by
  cases h : s.agenda with
  | nil => exact ⟨[], by rw [nextTurn_nil h, ← h]⟩
  | cons x rest => exact ⟨rest, by rw [nextTurn_cons h]⟩

/-! ### The engine's turn -/

theorem engineTurn_idle {s : State} (h : s.busy = false) : engineTurn s = .next s := by
  simp [engineTurn, h]

theorem engineTurn_command {s : State} {i : Instr} (h : s.busy = true) (hd : decode s.cmd = .ok i) :
    engineTurn s = exec i s := by simp [engineTurn, h, hd]

theorem engineTurn_illegal {s : State} {e : Reject} (h : s.busy = true) (hd : decode s.cmd = .error e) :
    engineTurn s = .next (raise s .illcmd) := by simp [engineTurn, h, hd]

/-- Everything the engine's turn can do. -/
theorem engineTurn_cases {s t : State} (h : engineTurn s = .next t) :
    (s.busy = false ∧ t = s) ∨
    (s.busy = true ∧ ∃ i, decode s.cmd = .ok i ∧ t = outcomeOf i s) ∨
    (s.busy = true ∧ ∃ e, decode s.cmd = .error e ∧ t = raise s .illcmd) := by
  cases hb : s.busy with
  | false => rw [engineTurn_idle hb] at h; cases h; exact .inl ⟨rfl, rfl⟩
  | true =>
    cases hd : decode s.cmd with
    | ok i =>
      rw [engineTurn_command hb hd, exec_eq_next] at h; cases h
      exact .inr (.inl ⟨rfl, i, rfl, rfl⟩)
    | error e => rw [engineTurn_illegal hb hd] at h; cases h; exact .inr (.inr ⟨rfl, e, rfl, rfl⟩)

/-! ### The host's turn -/

/-- Everything a host action can answer as a next state (R32 to R35, R60, R295). -/
theorem hostAct_cases {a : HostAction} {s t : State} (h : hostAct a s = .next t) :
    (∃ offset v, a = .wr offset v ∧ offset % 4 = 0 ∧ t = writeReg s offset v) ∨
    (∃ offset, a = .rd offset ∧ offset % 4 = 0 ∧ t = { s with replies := .word (readReg s offset) :: s.replies }) ∨
    (∃ addr bs, a = .mset addr bs ∧ s.busy = false ∧ (bs.length = 0 ∨ addr + bs.length ≤ s.mem.size) ∧
      t = { s with mem := memWrite s.mem addr bs }) ∨
    (∃ addr n, a = .mget addr n ∧ s.busy = false ∧ (n = 0 ∨ addr + n ≤ s.mem.size) ∧
      t = { s with replies := .bytes (memRead s.mem addr n) :: s.replies }) := by
  cases a with
  | wr offset v =>
    simp only [hostAct] at h
    split at h <;> cases h
    exact .inl ⟨offset, v, rfl, ‹_›, rfl⟩
  | rd offset =>
    simp only [hostAct] at h
    split at h <;> cases h
    exact .inr (.inl ⟨offset, rfl, ‹_›, rfl⟩)
  | mset addr bs =>
    simp only [hostAct] at h
    split at h
    · cases h
    · rename_i hb
      rcases checkRange_cases s.mem addr bs.length with ⟨hc, hr⟩ | ⟨hc, -, -⟩ <;> rw [hc] at h <;> cases h
      exact .inr (.inr (.inl ⟨addr, bs, rfl, by simpa using hb, hr, rfl⟩))
  | mget addr n =>
    simp only [hostAct] at h
    split at h
    · cases h
    · rename_i hb
      rcases checkRange_cases s.mem addr n with ⟨hc, hr⟩ | ⟨hc, -, -⟩ <;> rw [hc] at h <;> cases h
      exact .inr (.inr (.inr ⟨addr, n, rfl, by simpa using hb, hr, rfl⟩))

/-- Everything a step can do: the engine's turn, a host action, or the reset input, on the state without that turn. -/
theorem step_cases {s t : State} (h : step s = .next t) : ∃ s₁ rest, s₁ = { s with agenda := rest } ∧
    (((s.agenda = .engine :: rest ∨ (s.agenda = [] ∧ rest = [])) ∧ engineTurn s₁ = .next t) ∨
     (∃ a, s.agenda = .host a :: rest ∧ hostAct a s₁ = .next t) ∨
     (s.agenda = .rst :: rest ∧ t = resetEngine s₁)) := by
  cases ha : s.agenda with
  | nil =>
    rw [step, nextTurn_nil ha] at h
    exact ⟨s, [], by rw [← ha], .inl ⟨.inr ⟨rfl, rfl⟩, h⟩⟩
  | cons x rest =>
    rw [step, nextTurn_cons ha] at h
    refine ⟨_, rest, rfl, ?_⟩
    cases x with
    | engine => exact .inl ⟨.inl rfl, h⟩
    | host a => exact .inr (.inl ⟨a, rfl, h⟩)
    | rst => cases h; exact .inr (.inr ⟨rfl, rfl⟩)

/-! ### What a completion keeps -/

/-- An error completion of any command starts from a state that differs from the given one in KEY, KV, SBOX and SBV
only (R222, R255). -/
theorem errorBase_fields (i : Instr) (s : State) :
    (errorBase i s).mem = s.mem ∧ (errorBase i s).cmd = s.cmd ∧ (errorBase i s).ie = s.ie ∧
    (errorBase i s).ovr = s.ovr ∧ (errorBase i s).src = s.src ∧ (errorBase i s).dst = s.dst ∧
    (errorBase i s).len = s.len ∧ (errorBase i s).pwa = s.pwa ∧ (errorBase i s).agenda = s.agenda ∧
    (errorBase i s).replies = s.replies ∧ (errorBase i s).freeCount = s.freeCount := by
  rcases errorBase_cases i s with h | h <;> rw [h] <;> exact ⟨rfl, rfl, rfl, rfl, rfl, rfl, rfl, rfl, rfl, rfl, rfl⟩

/-- No error has code 0 (R250). -/
theorem code_ne_ok (err : CmdError) : err.code ≠ .ok := by cases err <;> simp [CmdError.code]

/-- The address an error completion records for MEMX, as a word (R31). -/
theorem firstAbsent_ofNat (m : Mem) (a : Word) :
    BitVec.ofNat 32 (m.firstAbsent a.toNat) = if m.size ≤ a.toNat then a else BitVec.ofNat 32 m.size := by
  simp only [Mem.firstAbsent]; split <;> simp

/-- The one store of a command lies in MEM (R65, R66, R70). -/
theorem effect_store_in_range {i : Instr} {s : State} {e : Effect} (he : effect i s = .ok e) :
    e.storeBytes = [] ∨ e.storeAddr + e.storeBytes.length ≤ s.mem.size := by
  cases i with
  | nop => rw [effect_nop] at he; cases he; exact .inl rfl
  | zero => rw [effect_zero] at he; cases he; exact .inl rfl
  | kdf => rw [effect_kdf, effectKdf_ok] at he; obtain ⟨_, _, rfl⟩ := he; exact .inl rfl
  | ldkey => rw [effect_ldkey, effectLdkey_ok] at he; obtain ⟨_, rfl⟩ := he; exact .inl rfl
  | sbgen => rw [effect_sbgen, effectSbgen_ok] at he; obtain ⟨_, rfl⟩ := he; exact .inl rfl
  | gensb => rw [effect_gensb, effectGensb_ok] at he; obtain ⟨_, _, rfl⟩ := he; exact .inl rfl
  | ldsb => rw [effect_ldsb, effectLdsb_ok] at he; obtain ⟨_, rfl⟩ := he; exact .inl rfl
  | unpad => rw [effect_unpad, effectUnpad_ok] at he; obtain ⟨_, _, _, rfl⟩ := he; exact .inl rfl
  | stsb =>
    rw [effect_stsb, effectStsb_ok] at he; obtain ⟨_, h, rfl⟩ := he
    exact .inr (by simpa [flatOf_length] using h)
  | rndf rnd => rw [effect_rndf, effectRndf_ok] at he; obtain ⟨_, _, h, rfl⟩ := he; exact .inr (by simpa using h)
  | fwd => rw [effect_fwd, effectBlock_ok] at he; obtain ⟨_, _, h, rfl⟩ := he; exact .inr (by simpa using h)
  | inv => rw [effect_inv, effectBlock_ok] at he; obtain ⟨_, _, h, rfl⟩ := he; exact .inr (by simpa using h)
  | pad =>
    rw [effect_pad, effectPad_ok] at he; obtain ⟨_, h, rfl⟩ := he
    exact .inr (by simpa [addPadding] using h)
  | enc =>
    rw [effect_enc, effectEnc_ok] at he; obtain ⟨pt, pw, _, _, h, rfl⟩ := he
    exact .inr (by simpa [encrypt_length, addPadding] using h)
  | dec =>
    rw [effect_dec, effectDec_ok] at he; obtain ⟨_, _, pw, _, _, h | h, rfl⟩ := he
    · exact .inl (List.length_eq_zero_iff.mp h)
    · exact .inr h

/-! ### Reset -/

/-- The memory of the reset state is in canonical form (assumption 1). -/
theorem reset_mem_wf : State.reset.mem.wf = true := by decide

end Sys2Proof.Machine
end

