-- ==== Sys2Proof/Tests/Slice0.lean ====
section
/-! SUPPORT. Tests of one step each, expected results from spec/95_test_vectors.md (V numbers) and the rules' own
examples; the smoke test of WellFormed; and for every statement with hypotheses a concrete state that meets them. -/

-- One theorem at a time: many kernel evaluations at once would need many threads.
set_option Elab.async false

namespace Sys2Proof.Tests
open Sys2Proof.Machine Sys2Proof.Claims

/-! ### Helpers -/

/-- A memory of 0x10000 bytes with the given strings written at the given addresses. -/
def memOf (l : List (Nat × List Byte)) : Mem := l.foldl (fun m p => memWrite m p.1 p.2) ⟨0x10000, []⟩

/-- The state a test starts from: after reset, with that memory and those operands. -/
def start (l : List (Nat × List Byte)) (src dst len pwa : Word) : State :=
  { State.afterReset (memOf l) with src := src, dst := dst, len := len, pwa := pwa }

/-- A test state with tables loaded. -/
def loaded (s : State) (t : Table) : State := { s with sbox := Vector.replicate 16 t, sbv := true }

/-- The next state, where there is one. -/
def got (o : Host.Outcome State Fault Refusal) : Option State :=
  match o with
  | .next s => some s
  | .fault _ => none
  | .refused _ => none

/-- STATUS, OUTLEN and ERRADDR after a step. -/
def results (o : Host.Outcome State Fault Refusal) : Option (Word × Word × Word) :=
  (got o).map fun s => (statusWord s, s.outlen, s.errAddr)

/-- Bytes of MEM after a step. -/
def bytesOf (o : Host.Outcome State Fault Refusal) (a n : Nat) : Option (List Byte) :=
  (got o).map fun s => memRead s.mem a n

def password : List Byte := [0x70, 0x61, 0x73, 0x73, 0x77, 0x6f, 0x72, 0x64]

/-! ### WellFormed: one ill-formed term for each check -/

theorem test_wf_refuses_high_bits : (Fields.mk 1 0 0x00).wf = false ∧ (Fields.mk 1 0 0x00).zeroOk = false := by decide

theorem test_wf_refuses_reserved_opcode : (Fields.mk 0 0 0x0F).wf = false ∧ (Fields.mk 0 0 0x0F).opOk = false := by
  decide

theorem test_wf_refuses_round_index_in_format_z :
    (Fields.mk 0 1 0x0C).wf = false ∧ (Fields.mk 0 1 0x0C).rndOk = false := by decide

theorem test_wf_accepts_rndf_15 : (Instr.rndf 15).wf = true := by decide

/-! ### Decode: each command's word, bit by bit from R91 and R92 -/

theorem test_decode_housekeeping :
    decode 0b00000000000000000000000000000000 = .ok .nop ∧
    decode 0b00000000000000000000000000001110 = .ok .zero := by decide

theorem test_decode_key_derivation :
    decode 0b00000000000000000000000000000001 = .ok .kdf ∧
    decode 0b00000000000000000000000000000010 = .ok .ldkey := by decide

theorem test_decode_sbox_generator :
    decode 0b00000000000000000000000000000011 = .ok .sbgen ∧
    decode 0b00000000000000000000000000000100 = .ok .gensb ∧
    decode 0b00000000000000000000000000000101 = .ok .ldsb ∧
    decode 0b00000000000000000000000000000110 = .ok .stsb := by decide

theorem test_decode_round_function :
    decode 0b00000000000000000000000000000111 = .ok (.rndf 0) ∧
    decode 0b00000000000000000000000100000111 = .ok (.rndf 1) ∧
    decode 0b00000000000000000000101000000111 = .ok (.rndf 10) ∧
    decode 0b00000000000000000000111100000111 = .ok (.rndf 15) := by decide

theorem test_decode_feistel_network :
    decode 0b00000000000000000000000000001000 = .ok .fwd ∧
    decode 0b00000000000000000000000000001001 = .ok .inv := by decide

theorem test_decode_padding_codec :
    decode 0b00000000000000000000000000001010 = .ok .pad ∧
    decode 0b00000000000000000000000000001011 = .ok .unpad := by decide

theorem test_decode_cipher_engine :
    decode 0b00000000000000000000000000001100 = .ok .enc ∧
    decode 0b00000000000000000000000000001101 = .ok .dec := by decide

/-- V85 to V91. -/
theorem test_decode_refuses_illegal_words :
    decode 0x0000000F = .error .opcode ∧ decode 0x000000FF = .error .opcode ∧
    decode 0x0000010C = .error .roundIndex ∧ decode 0x00000100 = .error .roundIndex ∧
    decode 0x00001007 = .error .highBits ∧ decode 0x80000000 = .error .highBits ∧
    decode 0xFFFFFFFF = .error .highBits := by decide

/-- P4 and P3 write 0x00000207 for RNDF 2 and 0x0000000b for UNPAD. -/
theorem test_encode_words : encode (.rndf 2) = 0x00000207 ∧ encode .unpad = 0x0000000B := by decide

theorem test_table_word : decodeTableWord 32 0x0F07 = some (.rndf 15) ∧ decodeTableWord 32 0x0F = none ∧
    decodeTableWord 8 0x07 = some (.rndf 0) ∧ decodeTableWord 40 (2 ^ 32) = none := by decide

/-! ### The step -/

/-- The very next step is the completion of the word put in CMD: NOP leaves DONE (R227). -/
theorem test_with_fetch_word_runs : results (step (State.reset.withFetchWord 32 0x00)) = some (0x00000002, 0, 0) := by
  decide +kernel

/-- V85, from reset. -/
theorem test_illegal_word_completes :
    results (step (State.reset.withFetchWord 32 0x0F)) = some (0x00000102, 0, 0) := by decide +kernel

/-- V107: the write to CMD while busy only sets OVR, and the NOP in flight completes. -/
theorem test_overrun :
    results (runs 2 { State.reset.withFetchWord 32 0x00 with agenda := [.host (.wr 0x00 0x0E)] })
      = some (0x00000022, 0, 0) := by decide +kernel

/-- V105: the accept clears DONE and sets BUSY. -/
theorem test_accept : results (step { State.reset with done := true, ie := true, agenda := [issue .nop] })
    = some (0x00000001, 0, 0) := by decide +kernel

/-! ### The commands -/

/-- V109: after a failed command, NOP clears ERR and ERRADDR. -/
theorem test_nop : results (exec .nop { State.reset with err := .memx, errAddr := 0x00010000 })
    = some (0x00000002, 0, 0) := by decide +kernel

/-- V6: the bytes after the first zero are not read; KEY = SHA256("pass"). -/
theorem test_kdf_stops_at_zero :
    (got (exec .kdf (start [(0x100, [0x70, 0x61, 0x73, 0x73, 0x00, 0x77, 0x6f, 0x72, 0x64, 0x00])] 0 0 0 0x100))).map
      (fun s => (s.key.toList.take 8, s.kv))
      = some ([0xd7, 0x4f, 0xf0, 0xee, 0x8d, 0xa3, 0xb9, 0x80], true) := by decide +kernel

/-- V9. -/
theorem test_kdf_unterminated :
    results (exec .kdf (start [(0xFFFC, [0x61, 0x61, 0x61, 0x61])] 0 0 0 0xFFFC))
      = some (0x00000502, 0, 0x00010000) := by decide +kernel

/-- V8. -/
theorem test_ldkey :
    (got (exec .ldkey (start [(0x200, (List.range 32).map (BitVec.ofNat 8))] 0x200 0 0 0))).map
      (fun s => (s.key.toList, s.kv)) = some ((List.range 32).map (BitVec.ofNat 8), true) := by decide +kernel

/-- R122: 32 bytes at 0xFFE1 do not fit. -/
theorem test_ldkey_out_of_range :
    results (exec .ldkey (start [] 0xFFE1 0 0 0)) = some (0x00000502, 0, 0x00010000) := by decide +kernel

/-- V26a. -/
theorem test_sbgen_without_key : results (exec .sbgen State.reset) = some (0x00000202, 0, 0) := by decide +kernel

/-- V10: with the zero key the base permutation is the identity. -/
theorem test_base_permutation_zero_key : (basePermutation Key.zero).toList = (List.range 256).map (BitVec.ofNat 8) := by
  decide +kernel

/-- V12: the first entries of the base permutation of the key 00 01 .. 1f. -/
theorem test_base_permutation_counting_key :
    (basePermutation (Vector.ofFn fun i => BitVec.ofNat 8 i.val)).toList.take 8
      = [0xe1, 0x02, 0xf1, 0x06, 0xe9, 0x0a, 0xf3, 0x0e] := by decide +kernel

/-- R144 by hand for N = 4: the positions are 0, 1, 3, and, with the shift 3, 2. -/
theorem test_shuffle_of_four : roundRobinShuffle [0x0a, 0x0b, 0x0c, 0x0d] = [0x0a, 0x0b, 0x0d, 0x0c] := by decide

/-- R151: the password scan fails like KDF's, and nothing else changes. -/
theorem test_gensb_unterminated :
    results (exec .gensb (start [(0xFFFC, [0x61, 0x61, 0x61, 0x61])] 0 0 0 0xFFFC))
      = some (0x00000502, 0, 0x00010000) := by decide +kernel

/-- V26h: STATUS after GENSB. -/
theorem test_gensb_status :
    results (exec .gensb (start [(0x100, password ++ [0])] 0 0 0 0x100)) = some (0x0000000A, 0, 0) := by decide +kernel

/-- V26e. -/
theorem test_ldsb_out_of_range :
    results (exec .ldsb (start [] 0x00020000 0 0 0)) = some (0x00000502, 0, 0x00020000) := by decide +kernel

/-- R152: STATUS after LDSB (P4), here from the last place that fits. -/
theorem test_ldsb_status : results (exec .ldsb (start [] 0xF000 0 0 0)) = some (0x0000000A, 0, 0) := by decide +kernel

/-- V26b and V26c. -/
theorem test_stsb_errors :
    results (exec .stsb State.reset) = some (0x00000302, 0, 0) ∧
    results (exec .stsb (loaded (start [] 0 0xF001 0 0) identityTable)) = some (0x0000050A, 0, 0x00010000) := by
  decide +kernel

/-- V30, the tables being the identity. -/
theorem test_rndf_identity :
    bytesOf (exec (.rndf 2) (loaded (start [(0x210, [1, 2, 3, 4])] 0x210 0x214 0 0) identityTable)) 0x210 8
      = some [0x01, 0x02, 0x03, 0x04, 0x04, 0x07, 0x09, 0x0a] := by decide +kernel

/-- RNDF selects table `rnd` (P4, V34): only table 2 is i + 2. -/
theorem test_rndf_selects_its_table :
    bytesOf (exec (.rndf 2) { start [(0x210, [1, 2, 3, 4])] 0x210 0x210 0 0 with
      sbox := Vector.ofFn fun r => if r.val = 2 then Vector.ofFn fun i => BitVec.ofNat 8 (i.val + 2) else identityTable
      sbv := true }) 0x210 4 = some [0x06, 0x09, 0x0b, 0x0c] := by decide +kernel

/-- V40, and the frame of its store. -/
theorem test_fwd_identity_tables :
    bytesOf (exec .fwd (loaded (start [(0x200, [0, 1, 2, 3, 4, 5, 6, 7, 0xee])] 0x200 0x200 0 0) identityTable)) 0x200 9
      = some [0xc7, 0x88, 0xb8, 0x25, 0x1d, 0xd0, 0x5b, 0x5b, 0xee] := by decide +kernel

/-- V45: SRC = 0xFFF9 does not fit, and SRC is checked before DST. -/
theorem test_fwd_errors :
    results (exec .fwd (loaded (start [] 0xFFF9 0 0 0) identityTable)) = some (0x0000050A, 0, 0x00010000) ∧
    results (exec .fwd (loaded (start [] 0x00012345 0x00020000 0 0) identityTable))
      = some (0x0000050A, 0, 0x00012345) := by decide +kernel

/-- V46: INV is not FWD with the tables reversed. -/
theorem test_inv_identity_tables :
    bytesOf (exec .inv (loaded (start [(0x200, [0, 1, 2, 3, 4, 5, 6, 7])] 0x200 0x300 0 0) identityTable)) 0x300 8
      = some [0x29, 0xb4, 0x07, 0x43, 0xa3, 0x10, 0x78, 0x9d] := by decide +kernel

/-- R184, the rule's example. -/
theorem test_inv_undoes_v40 :
    bytesOf (exec .inv (loaded (start [(0x200, [0xc7, 0x88, 0xb8, 0x25, 0x1d, 0xd0, 0x5b, 0x5b])] 0x200 0x300 0 0)
      identityTable)) 0x300 8 = some [0, 1, 2, 3, 4, 5, 6, 7] := by decide +kernel

/-- V62 on the document's own bytes (S1). -/
theorem test_pad_seven :
    bytesOf (exec .pad (start [(0x200, [0x41, 0x42, 0x43, 0x44, 0x45, 0x46, 0x47])] 0x200 0x300 7 0)) 0x300 8
      = some [0x41, 0x42, 0x43, 0x44, 0x45, 0x46, 0x47, 0x31] := by decide +kernel

/-- V69 and V70. -/
theorem test_pad_edges :
    results (exec .pad (start [] 0xFFFFFFFF 0x300 0 0)) = some (0x00000002, 8, 0) ∧
    results (exec .pad (start [] 0x200 0xFFF1 8 0)) = some (0x00000502, 0, 0x00010000) := by decide +kernel

/-- V72b, V72d, V72e, V72f. -/
theorem test_unpad_last_byte :
    results (exec .unpad (start [(0x207, [0x31])] 0x200 0 8 0)) = some (0x00000002, 7, 0) ∧
    results (exec .unpad (start [(0x207, [0x38])] 0x200 0 8 0)) = some (0x00000002, 0, 0) ∧
    results (exec .unpad (start [(0x207, [0x39])] 0x200 0 8 0)) = some (0x00000012, 8, 0) ∧
    results (exec .unpad (start [(0x207, [0x2f])] 0x200 0 8 0)) = some (0x00000012, 8, 0) := by decide +kernel

/-- V74 and V75. -/
theorem test_unpad_errors :
    results (exec .unpad (start [] 0x00020000 0 12 0)) = some (0x00000402, 0, 0) ∧
    results (exec .unpad (start [] 0 0 0xFFFFFFF8 0)) = some (0x00000502, 0, 0x00010000) := by decide +kernel

/-- V59: the plaintext scan is first, and the tables are lost all the same. -/
theorem test_enc_errors :
    results (exec .enc (loaded (start [(0xFFFC, [0x61, 0x61, 0x61, 0x61])] 0xFFFC 0 0 0x00030000) identityTable))
      = some (0x00000502, 0, 0x00010000) ∧
    results (exec .enc (loaded (start [(0x200, [0x41, 0x00])] 0x200 0 0 0x00030000) identityTable))
      = some (0x00000502, 0, 0x00030000) := by decide +kernel

/-- V53's sizes: eight bytes of plaintext give OUTLEN = 16, and STATUS is DONE alone. -/
theorem test_enc_results :
    results (exec .enc (start [(0x100, password ++ [0]), (0x200, [0x41, 0x42, 0x43, 0x44, 0x45, 0x46, 0x47, 0x48, 0x00])]
      0x200 0x300 0 0x100)) = some (0x00000002, 16, 0) := by decide +kernel

/-- V59: BADLEN zeroises a loaded table set, and comes before the bad password address. -/
theorem test_dec_errors :
    results (exec .dec (loaded (start [] 0 0 12 0x00030000) identityTable)) = some (0x00000402, 0, 0) ∧
    results (exec .dec (start [] 0x00040000 0 8 0x00030000)) = some (0x00000502, 0, 0x00030000) := by decide +kernel

/-- P1's last lines: ZERO leaves STATUS = DONE only, and KEY zero. -/
theorem test_zero :
    (got (exec .zero { loaded State.reset identityTable with key := Vector.replicate 32 0x5e, kv := true })).map
      (fun s => (statusWord s, s.key, s.sbox[15][255])) = some (0x00000002, Key.zero, 0) := by decide +kernel

/-! ### Registers -/

/-- V101, V102. -/
theorem test_status_write :
    readReg (writeReg { State.reset with done := true } 0x04 0x00000002) 0x04 = 0x00000000 ∧
    readReg { State.reset with done := true, sbv := true, err := .memx } 0x04 = 0x0000050A ∧
    readReg (writeReg { State.reset with done := true, sbv := true, err := .memx } 0x04 0xFFFFFFFF) 0x04
      = 0x00000508 := by decide +kernel

/-- V103, V104, V106, V108. -/
theorem test_other_registers :
    readReg (writeReg State.reset 0x1C 5) 0x1C = 0 ∧ readReg (writeReg State.reset 0x20 5) 0x20 = 0 ∧
    readReg (writeReg State.reset 0x08 0xFFFFFFFF) 0x08 = 0x00000001 ∧
    readReg (writeReg { State.reset with busy := true } 0x0C 0x1234) 0x0C = 0 ∧
    readReg (writeReg State.reset 0x24 0x1234) 0x24 = 0 := by decide +kernel

/-! ### Witnesses: for each statement with hypotheses, a state that meets them -/

/-- "password" at 0x100, "ABCDEFG" at 0x200, an empty string in the last byte of MEM, four other bytes before it. -/
def wMem : Mem := memOf [(0x100, password ++ [0]), (0x200, [0x41, 0x42, 0x43, 0x44, 0x45, 0x46, 0x47, 0x00]),
  (0xFFFB, [0x61, 0x61, 0x61, 0x61, 0x00])]

/-- The memory whose last four bytes are not zero. -/
def wOpenMem : Mem := memOf [(0xFFFC, [0x61, 0x61, 0x61, 0x61])]

/-- An idle state with a key and tables. -/
def wState : State :=
  { State.afterReset wMem with src := 0x200, dst := 0x300, len := 8, pwa := 0x100, kv := true, sbv := true }

theorem wMem_legal : wMem.Legal := ⟨by decide +kernel, by decide +kernel, by decide +kernel⟩

/-- Any bytes of MEM lie where they lie. -/
theorem bytesLieAt_memRead (m : Mem) (a : Word) (n : Nat) : bytesLieAt m a (memRead m a.toNat n) := by
  intro i h
  rw [memRead_getElem]

/-- Any bytes of MEM are the bytes of a fixed-size object. -/
theorem bytesLieAt_ofBytes (m : Mem) (a : Word) (n : Nat) :
    bytesLieAt m a (ofBytes n (memRead m a.toNat n)).toList := by
  intro i h
  have hi : i < n := by simpa using h
  rw [Vector.getElem_toList, ofBytes_memRead_getElem _ _ _ _ hi]

/-- A range that is not inside MEM. -/
theorem outside {m : Mem} {a : Word} {n : Nat} (h : ¬ (n = 0 ∨ a.toNat + n ≤ m.size)) : ¬ inside m a n := h

theorem witness_string_password : stringAt wMem 0x100 password :=
  ⟨by decide +kernel, by decide +kernel, by decide +kernel⟩

theorem witness_string_plaintext : stringAt wMem 0x200 [0x41, 0x42, 0x43, 0x44, 0x45, 0x46, 0x47] :=
  ⟨by decide +kernel, by decide +kernel, by decide +kernel⟩

/-- The boundary: the empty string in the last byte of MEM. -/
theorem witness_string_last_byte : stringAt wMem 0xFFFF [] :=
  ⟨by decide +kernel, fun i h => absurd h (Nat.not_lt_zero i), by decide +kernel⟩

/-- The boundaries: the last bytes are not zero; and the address is MEM_BYTES itself. -/
theorem witness_no_terminator : noTerminator wOpenMem 0xFFFC ∧ noTerminator wOpenMem 0x10000 := by
  have hs : wOpenMem.size = 0x10000 := by decide +kernel
  refine ⟨fun x h1 h2 => ?_, fun x h1 h2 => ?_⟩
  · have h1 : 0xFFFC ≤ x := h1
    have : x = 0xFFFC ∨ x = 0xFFFD ∨ x = 0xFFFE ∨ x = 0xFFFF := by omega
    rcases this with rfl | rfl | rfl | rfl <;> decide +kernel
  · have h1 : 0x10000 ≤ x := h1
    omega

theorem witness_opcode_map :
    (0x00000F07 &&& opcodeRows[7].mask = opcodeRows[7].pattern) ∧
    (0x0000000E &&& opcodeRows[14].mask = opcodeRows[14].pattern) := by decide

/-- One word for each clause, at the edges of the ranges. -/
theorem witness_decode_fields :
    ((0x00001000 : Word).toNat / 2 ^ 12 ≠ 0) ∧
    ((0x00000F07 : Word).toNat / 2 ^ 12 = 0 ∧ (0x00000F07 : Word).toNat % 256 = 7) ∧
    ((0x0000000E : Word).toNat / 2 ^ 12 = 0 ∧ (0x0000000E : Word).toNat % 256 ≠ 7 ∧
      (0x0000000E : Word).toNat % 256 ≤ 0x0E ∧ (0x0000000E : Word).toNat / 256 = 0) ∧
    ((0x0000000F : Word).toNat / 2 ^ 12 = 0 ∧ (0x0000000F : Word).toNat % 256 ≠ 7 ∧
      0x0E < (0x0000000F : Word).toNat % 256) ∧
    ((0x0000010C : Word).toNat / 2 ^ 12 = 0 ∧ (0x0000010C : Word).toNat % 256 ≠ 7 ∧
      (0x0000010C : Word).toNat / 256 ≠ 0) := by decide

/-- For the statements about the engine's turn: both ways it can be its turn, a legal and an illegal word, and idle. -/
theorem witness_engine_moves :
    engineMoves (wState.withFetchWord 32 0x08) [] ∧ (wState.withFetchWord 32 0x08).busy = true ∧
    decode (wState.withFetchWord 32 0x08).cmd = .ok .fwd ∧
    decode (wState.withFetchWord 32 0x0F).cmd = .error .opcode ∧
    engineMoves { accept wState 0x08 with agenda := [] } [] ∧ engineMoves wState [] ∧ wState.busy = false :=
  ⟨.inl rfl, by decide +kernel, by decide +kernel, by decide +kernel, .inr ⟨rfl, rfl⟩, .inr ⟨rfl, rfl⟩,
    by decide +kernel⟩

/-- A FWD in flight, and three register accesses of the host still to come. -/
theorem witness_busy_accesses : ∃ (s t : State) (acts : List HostAction),
    s.busy = true ∧ (∀ a ∈ acts, registerAccess a) ∧ s.agenda = acts.map .host ∧ acts.length = 3 ∧
    step { s with agenda := [] } = .next t := by
  refine ⟨{ accept wState 0x08 with agenda := [.host (.wr 0x00 0x0E), .host (.rd 0x04), .host (.wr 0x0C 5)] },
    outcomeOf .fwd (accept wState 0x08), [.wr 0x00 0x0E, .rd 0x04, .wr 0x0C 5], rfl, ?_, rfl, rfl, ?_⟩
  · intro a ha
    simp only [List.mem_cons, List.not_mem_nil, or_false] at ha
    rcases ha with rfl | rfl | rfl <;> exact rfl
  · exact (engineTurn_command (s := accept wState 0x08) (i := .fwd) rfl (by decide +kernel)).trans (exec_eq_next _ _)

/-- R121, R151: both clauses. -/
theorem witness_kdf_gensb : stringAt wState.mem wState.pwa password ∧ noTerminator wOpenMem 0xFFFC :=
  ⟨witness_string_password, witness_no_terminator.1⟩

/-- R122: the last place that fits, and the first that does not. -/
theorem witness_ldkey : (∃ key : Key, (0xFFE0 : Word).toNat + 32 ≤ wMem.size ∧
    ∀ i : Fin 32, wMem.byte ((0xFFE0 : Word).toNat + i) = key[i]) ∧ wMem.size < (0xFFE1 : Word).toNat + 32 :=
  ⟨⟨Vector.ofFn fun i => wMem.byte (0xFFE0 + i), by decide +kernel, fun i => by simp⟩, by decide +kernel⟩

theorem witness_sbgen : wState.kv = true ∧ State.reset.kv = false := by decide +kernel

theorem witness_ldsb : (∃ ss : SBoxSet, (0xF000 : Word).toNat + 4096 ≤ wMem.size ∧
    ∀ (r : Fin 16) (i : Fin 256), wMem.byte ((0xF000 : Word).toNat + 256 * r + i) = ss[r][i]) ∧
    wMem.size < (0xF001 : Word).toNat + 4096 :=
  ⟨⟨Vector.ofFn fun r => Vector.ofFn fun i => wMem.byte (0xF000 + 256 * r + i), by decide +kernel,
    fun r i => by simp⟩, by decide +kernel⟩

theorem witness_stsb : State.reset.sbv = false ∧ wState.sbv = true ∧ wState.mem.size < (0xF001 : Word).toNat + 4096 ∧
    (0xF000 : Word).toNat + 4096 ≤ wState.mem.size := by decide +kernel

/-- R171: the four clauses, the ranges at the edge of MEM. -/
theorem witness_rndf : State.reset.sbv = false ∧ wState.sbv = true ∧ ¬ inside wMem 0xFFFD 4 ∧ inside wMem 0xFFFC 4 ∧
    ∃ inp : Half, bytesLieAt wMem 0xFFFC inp.toList :=
  ⟨by decide +kernel, by decide +kernel, outside (by decide +kernel), .inr (by decide +kernel),
    _, bytesLieAt_ofBytes _ _ _⟩

/-- R183, R184: the four clauses, the ranges at the edge of MEM. -/
theorem witness_fwd_inv : State.reset.sbv = false ∧ wState.sbv = true ∧ ¬ inside wMem 0xFFF9 8 ∧ inside wMem 0xFFF8 8 ∧
    ∃ b : Block, bytesLieAt wMem 0xFFF8 b.toList :=
  ⟨by decide +kernel, by decide +kernel, outside (by decide +kernel), .inr (by decide +kernel),
    _, bytesLieAt_ofBytes _ _ _⟩

/-- R202: the three clauses with LEN = 8, and the empty input at the highest address. -/
theorem witness_pad : wState.len.toNat = 8 ∧ ¬ inside wMem 0xFFF9 8 ∧ inside wMem 0x200 8 ∧
    ¬ inside wMem 0xFFF1 (8 + 8) ∧ inside wMem 0xFFF0 (8 + 8) ∧ inside wMem 0xFFFFFFFF 0 ∧
    ∃ x : List Byte, x.length = 8 ∧ bytesLieAt wMem 0x200 x :=
  ⟨by decide +kernel, outside (by decide +kernel), .inr (by decide +kernel),
    outside (by decide +kernel), .inr (by decide +kernel), .inl rfl,
    _, memRead_length wMem 0x200 8, bytesLieAt_memRead wMem 0x200 8⟩

/-- R203: the four clauses; the candidate of the byte 0x39 is 9 and that of 0x38 is 8. -/
theorem witness_unpad : (∃ n : Nat, n = (0 : Word).toNat ∧ (n = 0 ∨ n % 8 ≠ 0)) ∧
    (wState.len.toNat ≠ 0 ∧ wState.len.toNat % 8 = 0) ∧ ¬ inside wMem 0xFFF9 8 ∧ inside wMem 0x200 8 ∧
    8 < ((memOf [(0x207, [0x39])]).byte 0x207 - 0x30).toNat ∧ ((memOf [(0x207, [0x38])]).byte 0x207 - 0x30).toNat ≤ 8 :=
  ⟨⟨0, rfl, .inl rfl⟩, by decide +kernel, outside (by decide +kernel), .inr (by decide +kernel),
    by decide +kernel, by decide +kernel⟩

/-- R221: the four clauses. -/
theorem witness_enc : noTerminator wOpenMem 0xFFFC ∧
    stringAt wMem 0x200 [0x41, 0x42, 0x43, 0x44, 0x45, 0x46, 0x47] ∧ noTerminator wMem 0x10000 ∧
    stringAt wMem 0x100 password ∧ ¬ inside wMem 0xFFF9 (7 + (8 - 7 % 8)) ∧ inside wMem 0xFFF8 (7 + (8 - 7 % 8)) :=
  ⟨witness_no_terminator.1, witness_string_plaintext,
    fun x h1 h2 => absurd (Nat.lt_of_le_of_lt h1 h2) (by decide +kernel),
    witness_string_password, outside (by decide +kernel), .inr (by decide +kernel)⟩

/-- R223: the five clauses; the plaintext of one block is at most 8 bytes long, so it fits at 0x300, and it does not fit
at an address beyond MEM unless it is empty. -/
theorem witness_dec : (∃ n : Nat, n = (12 : Word).toNat ∧ (n = 0 ∨ n % 8 ≠ 0)) ∧
    (wState.len.toNat ≠ 0 ∧ wState.len.toNat % 8 = 0) ∧ noTerminator wMem 0x10000 ∧ stringAt wMem 0x100 password ∧
    ¬ inside wMem 0xFFF9 8 ∧ inside wMem 0x200 8 ∧
    ∃ ct, ct.length = 8 ∧ bytesLieAt wMem 0x200 ct ∧ inside wMem 0x300 (decrypt ct password).1.length :=
  ⟨⟨12, rfl, .inr (by decide)⟩, by decide +kernel,
    fun x h1 h2 => absurd (Nat.lt_of_le_of_lt h1 h2) (by decide +kernel),
    witness_string_password, outside (by decide +kernel), .inr (by decide +kernel),
    memRead wMem 0x200 8, memRead_length _ _ _, bytesLieAt_memRead wMem 0x200 8,
    .inr (by
      have hs : wMem.size = 0x10000 := by decide +kernel
      have h := (decrypt_length (memRead wMem 0x200 8) password (by rw [memRead_length])).1
      rw [memRead_length] at h
      have h2 : (0x300 : Word).toNat = 0x300 := by decide
      omega)⟩

/-- R223's clause of a plaintext that does not fit: two blocks decrypt to at least 8 bytes, and DST lies beyond MEM. -/
theorem witness_dec_no_room : ∃ ct, ct.length = (16 : Word).toNat ∧ inside wMem 0x200 16 ∧ bytesLieAt wMem 0x200 ct ∧
    ¬ inside wMem 0x10000 (decrypt ct password).1.length :=
  ⟨memRead wMem 0x200 16, memRead_length _ _ _, .inr (by decide +kernel), bytesLieAt_memRead wMem 0x200 16, fun h => by
    have hs : wMem.size = 0x10000 := by decide +kernel
    have hl := (decrypt_length (memRead wMem 0x200 16) password (by rw [memRead_length])).2
    rw [memRead_length] at hl
    have h2 : (0x10000 : Word).toNat = 0x10000 := by decide
    rcases h with h | h <;> omega⟩

/-- For the statements whose hypothesis is that a command answers a next state: every command does, in a legal state. -/
theorem witness_exec_next : wState.mem.Legal ∧ ∀ i, ∃ t, exec i wState = .next t :=
  ⟨wMem_legal, fun i => ⟨_, exec_eq_next i wState⟩⟩

/-- A normal completion, an error other than MEMX, and a MEMX. -/
theorem witness_completions :
    (got (exec .ldkey wState)).map (·.err) = some .ok ∧ (got (exec .fwd State.reset)).map (·.err) = some .nosbox ∧
    (got (exec .enc State.reset)).isSome = true ∧
    (got (exec .ldkey { wState with src := 0xFFE1 })).map (·.err) = some .memx := by decide +kernel

/-- R65: an empty store anywhere, and one that exactly fills the end of MEM. -/
theorem witness_mem_write : (([] : List Byte).length = 0 ∨ 0x20000 + ([] : List Byte).length ≤ wMem.size) ∧
    ([1, 2].length = 0 ∨ 0xFFFE + [1, 2].length ≤ wMem.size) ∧ wMem.wf = true :=
  ⟨.inl rfl, .inr (by decide +kernel), wMem_legal.canonical⟩

/-- R66: an empty range beyond MEM, an exact fit, one byte too many, and a start beyond MEM. -/
theorem witness_check_range : (0 = 0 ∨ (0x20000 : Word).toNat + 0 ≤ wMem.size) ∧
    (8 = 0 ∨ (0xFFF8 : Word).toNat + 8 ≤ wMem.size) ∧ ¬ (8 = 0 ∨ (0xFFF9 : Word).toNat + 8 ≤ wMem.size) ∧
    (0xFFF9 : Word).toNat < wMem.size ∧ ¬ (1 = 0 ∨ (0x10000 : Word).toNat + 1 ≤ wMem.size) ∧
    wMem.size ≤ (0x10000 : Word).toNat := by decide +kernel

/-- R67: a string of one byte before its zero, the empty string in the last byte, and no zero byte. -/
theorem witness_scan :
    (0xFFFE + 1 < wMem.size ∧ wMem.byte (0xFFFE + 1) = 0 ∧ ∀ j < 1, wMem.byte (0xFFFE + j) ≠ 0) ∧
    (0xFFFF + 0 < wMem.size ∧ wMem.byte (0xFFFF + 0) = 0) ∧
    (∀ x, 0xFFFC ≤ x → x < wOpenMem.size → wOpenMem.byte x ≠ 0) ∧
    scanZ wMem 0xFFFE = .ok [0x61] :=
  ⟨by decide +kernel, by decide +kernel, witness_no_terminator.1, by decide +kernel⟩

theorem witness_host_registers :
    wState.busy = false ∧ (accept wState 0).busy = true ∧ (0x24 % 4 = 0 ∧ 0x24 ≤ 0x24) ∧ 0x22 % 4 ≠ 0 ∧
    hostAct (.wr 0x08 5) wState = .next { wState with ie := true } :=
  ⟨by decide +kernel, by decide +kernel, by decide, by decide, rfl⟩

/-- A store and a load that end with MEM and one byte beyond, and empty ones beyond MEM. -/
theorem witness_host_mem : (accept wState 0).busy = true ∧ wState.busy = false ∧
    0xFFFE + [1, 2].length ≤ wState.mem.size ∧ 0xFFF0 + 16 ≤ wState.mem.size ∧
    ([1, 2, 3] : List Byte) ≠ [] ∧ wState.mem.size < 0xFFFE + [1, 2, 3].length ∧
    wState.mem.size < 0xFFF0 + 17 ∧
    hostAct (.mget 0x10000 1) wState = .fault (.hostAddressAbsent 0x10000) ∧
    hostAct (.mget 0x20000 0) wState = .next { wState with replies := [.bytes []] } ∧
    hostAct (.mset 0x20000 []) wState = .next wState :=
  ⟨by decide +kernel, by decide +kernel, by decide +kernel, by decide +kernel, by decide +kernel, by decide +kernel,
    by decide +kernel, by rfl, by rfl, by rfl⟩

theorem witness_interrupt :
    (∃ t, engineMoves (wState.withFetchWord 32 0) [] ∧ step (wState.withFetchWord 32 0) = .next t) ∧
    (∃ t, wState.busy = false ∧ hostAct (.wr 0x00 0) wState = .next t) ∧
    (∃ t, hostAct (.wr 0x04 2) wState = .next t) ∧
    (∃ t, (0xFFFFFFFE : Word).getLsbD 0 = false ∧ hostAct (.wr 0x08 0xFFFFFFFE) wState = .next t) :=
  ⟨⟨_, .inl rfl, (engineTurn_command (s := accept wState 0) (i := .nop) rfl (by decide +kernel)).trans
      (exec_eq_next _ _)⟩,
    ⟨_, by decide +kernel, rfl⟩, ⟨_, rfl⟩, ⟨_, by decide, rfl⟩⟩

/-- R290, R291: the reset input with the engine idle, with a FWD in flight (8 bytes at 0x300), and with an illegal word. -/
theorem witness_reset_input :
    ({ accept wState 0x08 with agenda := [.rst] } : State).agenda = .rst :: [] ∧ wState.busy = false ∧
    decode (accept wState 0x08).cmd = .ok .fwd ∧ (writeRange .fwd wState).count = 8 ∧
    ¬ (wState.dst.toNat ≤ 0x308 ∧ 0x308 < wState.dst.toNat + (writeRange .fwd wState).count) ∧
    decode (accept wState 0x0F).cmd = .error .opcode :=
  ⟨rfl, by decide +kernel, by decide +kernel, by decide +kernel, by decide +kernel, by decide +kernel⟩

/-- R72: a memory that differs from MEM outside what FWD reads, and agrees on it. -/
theorem witness_read_footprint : ∃ m' : Mem, m' ≠ wState.mem ∧ m'.size = wState.mem.size ∧
    (∀ rg ∈ readRanges .fwd wState, ∀ x, rg.has x → m'.byte x = wState.mem.byte x) ∧
    (writeRange .fwd wState).has 0x307 ∧ 0x307 < wState.mem.size ∧ ¬ (writeRange .fwd wState).has 0x308 := by
  have hw : writeRange .fwd wState = ⟨0x300, 8⟩ := by decide +kernel
  refine ⟨memWrite wMem 0x208 [1], by decide +kernel, memWrite_size _ _ _, ?_, ?_, by decide +kernel, ?_⟩
  · intro rg hrg x hx
    have hrg : rg ∈ [Range.mk 0x200 8] := hrg
    rw [List.mem_singleton] at hrg
    subst hrg
    refine memWrite_byte_outside _ _ _ _ (.inl ?_)
    have := hx.2
    simp only at this
    omega
  · rw [hw]; exact ⟨by decide, by decide⟩
  · rw [hw]; exact fun h => absurd h.2 (by decide)

theorem witness_key_secrecy : ∃ t, step (wState.withFetchWord 32 0x08) = .next t ∧
    ∀ rest, engineMoves (wState.withFetchWord 32 0x08) rest → (wState.withFetchWord 32 0x08).busy = true →
      decode (wState.withFetchWord 32 0x08).cmd ≠ .ok .sbgen :=
  ⟨_, (engineTurn_command (s := accept wState 0x08) (i := .fwd) rfl (by decide +kernel)).trans (exec_eq_next _ _),
    fun _ _ _ => by decide +kernel⟩

theorem witness_sha_length : ([] : List Byte).length < 2 ^ 61 ∧ password.length < 2 ^ 61 := by decide

theorem witness_shuffle_index : (0 : Nat) < 4096 ∧ 4095 < 4096 := by decide

/-- R220: the last block of a two-block message, and its two equal blocks "AAAAAAAA" of a three-block one. -/
theorem witness_encrypt_blocks :
    8 * 1 + 8 ≤ (encrypt (List.replicate 8 0x41) password).length ∧
    8 * 2 + 8 ≤ (encrypt (List.replicate 16 0x41) password).length ∧
    blockAt (addPadding (List.replicate 16 0x41)) 1 = blockAt (addPadding (List.replicate 16 0x41)) 0 := by
  rw [encrypt_length, encrypt_length]
  decide +kernel

/-- R141: a swap with another entry and one with itself. -/
theorem witness_swap_target :
    (225 : Fin 256).val = ((1 : Fin 256).val + (Vector.replicate 32 (0xE0 : Byte) : Key)[(1 : Fin 256).val % 32].toNat) % 256 ∧
    (1 : Fin 256).val = ((1 : Fin 256).val + Key.zero[(1 : Fin 256).val % 32].toNat) % 256 := by decide

/-- R224 on a ciphertext that no ENC made (V58e's, 16 zero bytes), and its last block. -/
theorem witness_decrypt_blocks : (List.replicate 16 0 : List Byte) ≠ [] ∧
    (List.replicate 16 0 : List Byte).length % 8 = 0 ∧ 8 * 1 + 8 ≤ (List.replicate 16 0 : List Byte).length := by decide

/-- R201: both ranges of the candidate at their border, as UNPAD sees them (V72d, V72e). -/
theorem test_remove_padding_border :
    removePaddingLen (List.replicate 8 0x38) = (0, false) ∧ removePaddingLen (List.replicate 8 0x39) = (8, true) := by
  decide

/-- V43: with constant tables both networks are the identity. -/
theorem test_constant_tables :
    let b : Block := #v[0x01, 0x23, 0x45, 0x67, 0x89, 0xab, 0xcd, 0xef]
    let ss : SBoxSet := Vector.replicate 16 (Vector.replicate 256 0xa5)
    forward b ss = b ∧ inverse b ss = b := by decide +kernel

/-- V41: sixteen different tables, so the tables' order shows. -/
theorem test_forward_v41 :
    forward #v[0x01, 0x23, 0x45, 0x67, 0x89, 0xab, 0xcd, 0xef]
      (Vector.ofFn fun r => Vector.ofFn fun i => BitVec.ofNat 8 (i.val + r.val))
      = #v[0xdc, 0x17, 0x10, 0xd1, 0x36, 0x7c, 0x34, 0x8f] := by decide +kernel

/-- R225: the plaintext, the password and both destinations lie apart. -/
theorem witness_enc_then_dec : ∃ t, wState.mem.Legal ∧
    stringAt wState.mem wState.src [0x41, 0x42, 0x43, 0x44, 0x45, 0x46, 0x47] ∧
    stringAt wState.mem wState.pwa password ∧ inside wState.mem wState.dst (7 + (8 - 7 % 8)) ∧
    inside wState.mem 0x400 7 ∧
    (wState.pwa.toNat + password.length < wState.dst.toNat ∨
      wState.dst.toNat + (7 + (8 - 7 % 8)) ≤ wState.pwa.toNat) ∧
    exec .enc wState = .next t :=
  ⟨_, wMem_legal, witness_string_plaintext, witness_string_password, .inr (by decide +kernel),
    .inr (by decide +kernel), .inl (by decide +kernel), exec_eq_next _ _⟩

/-- The invariants hold of the reset state, and it steps. -/
theorem witness_invariants : State.reset.Inv ∧ (∃ t, step State.reset = .next t) ∧ wMem.Legal := by
  refine ⟨⟨⟨by decide, by decide, by decide⟩, fun _ => rfl, fun _ => rfl, rfl, rfl, by decide, ?_, fun _ => rfl, ?_⟩,
    ⟨_, engineTurn_idle (s := State.reset) rfl⟩, wMem_legal⟩
  · exact fun h => absurd rfl h
  · exact fun h => absurd h (by decide)

end Sys2Proof.Tests
end

/-! SUPPORT. Proofs of the statements of spec/10_state.md: the registers and the flags, the invariants, reset, and
what can depend on KEY. The lemmas come first, by the operation they speak of; each settled statement cites them. -/

namespace Sys2Proof.Machine
open Sys2Proof.Claims

/-! ### Whose turn it is -/

/-- When the engine moves, the step is its turn on the state with that turn taken off the agenda. -/
theorem step_of_engineMoves {s : State} {rest : List Turn} (h : engineMoves s rest) :
    step s = engineTurn { s with agenda := rest } := by
  rcases h with h | ⟨h, rfl⟩
  · rw [step, nextTurn_cons h]; rfl
  · rw [step, nextTurn_nil h, ← h]; rfl

/-- When the host moves, the step is its action on the state with that turn taken off the agenda. -/
theorem step_of_host {s : State} {a : HostAction} {rest : List Turn} (h : s.agenda = .host a :: rest) :
    step s = hostAct a { s with agenda := rest } := by
  rw [step, nextTurn_cons h]; rfl

/-- When the reset input moves, the step is the reset of the state with that turn taken off the agenda. -/
theorem step_of_rst {s : State} {rest : List Turn} (h : s.agenda = .rst :: rest) :
    step s = .next (resetEngine { s with agenda := rest }) := by
  rw [step, nextTurn_cons h]; rfl

/-! ### The host's register accesses (R25 to R35) -/

theorem hostAct_wr {offset : Nat} (h : offset % 4 = 0) (s : State) (v : Word) :
    hostAct (.wr offset v) s = .next (writeReg s offset v) := by simp [hostAct, h]

theorem hostAct_rd {offset : Nat} (h : offset % 4 = 0) (s : State) :
    hostAct (.rd offset) s = .next { s with replies := .word (readReg s offset) :: s.replies } := by
  simp [hostAct, h]

theorem hostAct_wr_misaligned {offset : Nat} (h : offset % 4 ≠ 0) (s : State) (v : Word) :
    hostAct (.wr offset v) s = .refused (.registerMisaligned offset) := by simp [hostAct, h]

theorem hostAct_rd_misaligned {offset : Nat} (h : offset % 4 ≠ 0) (s : State) :
    hostAct (.rd offset) s = .refused (.registerMisaligned offset) := by simp [hostAct, h]

theorem hostAct_mset {s : State} {addr : Nat} {bs : List Byte} (hb : s.busy = false)
    (h : bs.length = 0 ∨ addr + bs.length ≤ s.mem.size) :
    hostAct (.mset addr bs) s = .next { s with mem := memWrite s.mem addr bs } := by
  simp [hostAct, hb, checkRange_ok h]

theorem hostAct_mget {s : State} {addr n : Nat} (hb : s.busy = false) (h : n = 0 ∨ addr + n ≤ s.mem.size) :
    hostAct (.mget addr n) s = .next { s with replies := .bytes (memRead s.mem addr n) :: s.replies } := by
  simp [hostAct, hb, checkRange_ok h]

theorem writeCmd_idle {s : State} (h : s.busy = false) (v : Word) : writeCmd s v = accept s v := by
  simp [writeCmd, h]

theorem writeCmd_busy {s : State} (h : s.busy = true) (v : Word) : writeCmd s v = { s with ovr := true } := by
  simp [writeCmd, h]

/-- SRC, DST, LEN, PWA, OUTLEN and ERRADDR ignore writes while busy (R34). -/
theorem writeReg_ignored_busy {s : State} (h : s.busy = true) (v : Word) :
    ∀ offset ∈ [0x0C, 0x10, 0x14, 0x18, 0x1C, 0x20], writeReg s offset v = s := by
  simp [writeReg, h]

/-- An offset beyond ERRADDR names no register: it reads 0 (R35). -/
theorem readReg_unmapped (s : State) {offset : Nat} (h : 0x24 ≤ offset) : readReg s offset = 0 := by
  obtain ⟨n, rfl⟩ := Nat.exists_eq_add_of_le' h
  rfl

/-- An offset beyond ERRADDR names no register: it ignores writes (R35). -/
theorem writeReg_unmapped (s : State) {offset : Nat} (h : 0x24 ≤ offset) (v : Word) :
    writeReg s offset v = s := by
  obtain ⟨n, rfl⟩ := Nat.exists_eq_add_of_le' h
  rfl

/-- Everything a register write can do (R33, R34). -/
theorem writeReg_cases (s : State) (offset : Nat) (v : Word) :
    (s.busy = false ∧ writeReg s offset v = accept s v) ∨
    (s.busy = true ∧ writeReg s offset v = { s with ovr := true }) ∨
    writeReg s offset v = writeStatus s v ∨
    writeReg s offset v = writeCtrl s v ∨
    (s.busy = false ∧ ∃ src dst len pwa,
      writeReg s offset v = { s with src := src, dst := dst, len := len, pwa := pwa }) ∨
    writeReg s offset v = s := by
  unfold writeReg
  cases hb : s.busy <;> split <;> simp [writeCmd, hb]

/-! ### What a successful command makes of KEY, KV, SBOX and SBV (R42) -/

/-- The effect of each command on the arrays and their flags, in the rows of R42. -/
def Effect.SetsArrays (i : Instr) (s : State) (e : Effect) : Prop :=
  match i with
  | .nop | .stsb | .rndf _ | .fwd | .inv | .pad | .unpad =>
    e.key = s.key ∧ e.kv = s.kv ∧ e.sbox = s.sbox ∧ e.sbv = s.sbv
  | .kdf | .ldkey => e.kv = true ∧ e.sbox = s.sbox ∧ e.sbv = s.sbv
  | .sbgen | .gensb => e.key = Key.zero ∧ e.kv = false ∧ e.sbv = true
  | .ldsb => e.key = s.key ∧ e.kv = s.kv ∧ e.sbv = true
  | .enc | .dec | .zero => e.key = Key.zero ∧ e.kv = false ∧ e.sbox = SBoxSet.zero ∧ e.sbv = false

theorem effect_setsArrays {i : Instr} {s : State} {e : Effect} (h : effect i s = .ok e) :
    e.SetsArrays i s := by
  cases i with
  | nop => cases h; exact ⟨rfl, rfl, rfl, rfl⟩
  | zero => cases h; exact ⟨rfl, rfl, rfl, rfl⟩
  | kdf => obtain ⟨_, _, rfl⟩ := effectKdf_ok.mp h; exact ⟨rfl, rfl, rfl⟩
  | ldkey => obtain ⟨_, rfl⟩ := effectLdkey_ok.mp h; exact ⟨rfl, rfl, rfl⟩
  | sbgen => obtain ⟨_, rfl⟩ := effectSbgen_ok.mp h; exact ⟨rfl, rfl, rfl⟩
  | gensb => obtain ⟨_, _, rfl⟩ := effectGensb_ok.mp h; exact ⟨rfl, rfl, rfl⟩
  | ldsb => obtain ⟨_, rfl⟩ := effectLdsb_ok.mp h; exact ⟨rfl, rfl, rfl⟩
  | stsb => obtain ⟨_, _, rfl⟩ := effectStsb_ok.mp h; exact ⟨rfl, rfl, rfl, rfl⟩
  | rndf rnd => obtain ⟨_, _, _, rfl⟩ := effectRndf_ok.mp h; exact ⟨rfl, rfl, rfl, rfl⟩
  | fwd => obtain ⟨_, _, _, rfl⟩ := effectBlock_ok.mp h; exact ⟨rfl, rfl, rfl, rfl⟩
  | inv => obtain ⟨_, _, _, rfl⟩ := effectBlock_ok.mp h; exact ⟨rfl, rfl, rfl, rfl⟩
  | pad => obtain ⟨_, _, rfl⟩ := effectPad_ok.mp h; exact ⟨rfl, rfl, rfl, rfl⟩
  | unpad => obtain ⟨_, _, _, rfl⟩ := effectUnpad_ok.mp h; exact ⟨rfl, rfl, rfl, rfl⟩
  | enc => obtain ⟨_, _, _, _, _, rfl⟩ := effectEnc_ok.mp h; exact ⟨rfl, rfl, rfl, rfl⟩
  | dec => obtain ⟨_, _, _, _, _, _, rfl⟩ := effectDec_ok.mp h; exact ⟨rfl, rfl, rfl, rfl⟩

/-! ### Which address a MEMX names (R66, R67) -/

/-- A MEMX that `x` raises names the first absent address from an address operand of `s` on. -/
def MemxFromOperand {α : Type} (s : State) (x : Except CmdError α) : Prop :=
  ∀ bad, x = .error (.memx bad) →
    ∃ a, (a = s.src ∨ a = s.dst ∨ a = s.pwa) ∧ bad = s.mem.firstAbsent a.toNat

section MemxFromOperand
variable {α β : Type} {s : State}

theorem memxFromOperand_ok (x : α) : MemxFromOperand s (.ok x) := by
  intro bad h; cases h

theorem MemxFromOperand.bind {x : Except CmdError α} {f : α → Except CmdError β}
    (hx : MemxFromOperand s x) (hf : ∀ a, MemxFromOperand s (f a)) : MemxFromOperand s (x >>= f) := by
  intro bad h
  rcases except_bind_eq_error.mp h with h | ⟨a, -, h⟩
  · exact hx bad h
  · exact hf a bad h

theorem memxFromOperand_checkRange {a : Word} (ha : a = s.src ∨ a = s.dst ∨ a = s.pwa) (n : Nat) :
    MemxFromOperand s (checkRange s.mem (operand a) n) := by
  intro bad h
  exact ⟨a, ha, CmdError.memx.inj (checkRange_error_iff.mp h).2⟩

theorem memxFromOperand_scanZ {a : Word} (ha : a = s.src ∨ a = s.dst ∨ a = s.pwa) :
    MemxFromOperand s (scanZ s.mem (operand a)) := by
  intro bad h
  exact ⟨a, ha, CmdError.memx.inj (scanZ_error_iff.mp h).2⟩

theorem memxFromOperand_needKey : MemxFromOperand s (needKey s) := by
  intro bad h; cases (needKey_error.mp h).2

theorem memxFromOperand_needTables : MemxFromOperand s (needTables s) := by
  intro bad h; cases (needTables_error.mp h).2

theorem memxFromOperand_needBlocks (n : Nat) : MemxFromOperand s (needBlocks n) := by
  intro bad h; cases (needBlocks_error.mp h).2

theorem memxFromOperand_checkSrc (n : Nat) : MemxFromOperand s (checkRange s.mem (operand s.src) n) :=
  memxFromOperand_checkRange (.inl rfl) n

theorem memxFromOperand_checkDst (n : Nat) : MemxFromOperand s (checkRange s.mem (operand s.dst) n) :=
  memxFromOperand_checkRange (.inr (.inl rfl)) n

theorem memxFromOperand_scanPwa : MemxFromOperand s (scanZ s.mem (operand s.pwa)) :=
  memxFromOperand_scanZ (.inr (.inr rfl))

theorem memxFromOperand_block (f : Block → SBoxSet → Block) : MemxFromOperand s (effectBlock f s) :=
  memxFromOperand_needTables.bind fun _ => (memxFromOperand_checkSrc 8).bind fun _ =>
    (memxFromOperand_checkDst 8).bind fun _ => memxFromOperand_ok _

end MemxFromOperand

/-- Every MEMX of a command names the first absent address from SRC, DST or PWA on: each effect is a sequence of
checks of these operands. -/
theorem effect_memxFromOperand (i : Instr) (s : State) : MemxFromOperand s (effect i s) := by
  cases i with
  | nop => exact memxFromOperand_ok _
  | zero => exact memxFromOperand_ok _
  | sbgen => exact memxFromOperand_needKey.bind fun _ => memxFromOperand_ok _
  | kdf => exact memxFromOperand_scanPwa.bind fun _ => memxFromOperand_ok _
  | gensb => exact memxFromOperand_scanPwa.bind fun _ => memxFromOperand_ok _
  | ldkey => exact (memxFromOperand_checkSrc _).bind fun _ => memxFromOperand_ok _
  | ldsb => exact (memxFromOperand_checkSrc _).bind fun _ => memxFromOperand_ok _
  | stsb =>
    exact memxFromOperand_needTables.bind fun _ => (memxFromOperand_checkDst _).bind fun _ => memxFromOperand_ok _
  | rndf rnd =>
    exact memxFromOperand_needTables.bind fun _ => (memxFromOperand_checkSrc 4).bind fun _ =>
      (memxFromOperand_checkDst 4).bind fun _ => memxFromOperand_ok _
  | fwd => exact memxFromOperand_block forward
  | inv => exact memxFromOperand_block inverse
  | pad =>
    exact (memxFromOperand_checkSrc _).bind fun _ => (memxFromOperand_checkDst _).bind fun _ => memxFromOperand_ok _
  | unpad =>
    exact (memxFromOperand_needBlocks _).bind fun _ => (memxFromOperand_checkSrc _).bind fun _ => memxFromOperand_ok _
  | enc =>
    exact (memxFromOperand_scanZ (.inl rfl)).bind fun _ => memxFromOperand_scanPwa.bind fun _ =>
      (memxFromOperand_checkDst _).bind fun _ => memxFromOperand_ok _
  | dec =>
    exact (memxFromOperand_needBlocks _).bind fun _ => memxFromOperand_scanPwa.bind fun _ =>
      (memxFromOperand_checkSrc _).bind fun _ => (memxFromOperand_checkDst _).bind fun _ => memxFromOperand_ok _

/-! ### The invariants (R21 to R23, R26, R30, R31, R250) -/

theorem legal_memWrite {m : Mem} (h : m.Legal) (a : Nat) (bs : List Byte) : (memWrite m a bs).Legal :=
  ⟨memWrite_wf h.canonical a bs, by simpa using h.size_pos, by simpa using h.size_le⟩

/-- The address a MEMX records fits in 32 bits and names no byte, over a memory of a legal size (R31). -/
theorem size_le_firstAbsent_word {m : Mem} (h : m.Legal) (a : Word) :
    m.size ≤ (BitVec.ofNat 32 (m.firstAbsent a.toNat)).toNat := by
  have hs := h.size_le
  rw [firstAbsent_ofNat]
  split
  · assumption
  · rw [BitVec.toNat_ofNat, Nat.mod_eq_of_lt (by omega)]

theorem inv_agenda {s : State} (h : s.Inv) (rest : List Turn) : ({ s with agenda := rest } : State).Inv :=
  { h with }

theorem inv_replies {s : State} (h : s.Inv) (rs : List HostReply) : ({ s with replies := rs } : State).Inv :=
  { h with }

theorem inv_zeroised {s : State} (h : s.Inv) : s.zeroised.Inv :=
  { h with key_zero := fun _ => rfl, sbox_zero := fun _ => rfl }

theorem inv_errorBase {s : State} (h : s.Inv) (i : Instr) : (errorBase i s).Inv := by
  rcases errorBase_cases i s with hb | hb <;> rw [hb]
  · exact h
  · exact inv_zeroised h

/-- A host store keeps the size of MEM, so the address of an earlier MEMX still names no byte (R31, R61). -/
theorem inv_memWrite {s : State} (h : s.Inv) (a : Nat) (bs : List Byte) :
    ({ s with mem := memWrite s.mem a bs } : State).Inv :=
  { h with
    mem_legal := legal_memWrite h.mem_legal a bs
    memx_addr := by simpa using h.memx_addr }

/-- A write to STATUS sets neither BUSY nor DONE (R27). -/
theorem inv_writeStatus {s : State} (h : s.Inv) (v : Word) : (writeStatus s v).Inv :=
  { h with
    busy_done := by
      rw [writeStatus_busy, writeStatus_done, Bool.and_eq_true]
      exact fun ⟨hb, hd, _⟩ => h.busy_done ⟨hb, hd⟩ }

/-- A register write keeps the invariants: the accept clears DONE as it sets BUSY (R26). -/
theorem inv_writeReg {s : State} (h : s.Inv) (offset : Nat) (v : Word) : (writeReg s offset v).Inv := by
  rcases writeReg_cases s offset v with ⟨-, hw⟩ | ⟨-, hw⟩ | hw | hw | ⟨-, _, _, _, _, hw⟩ | hw <;> rw [hw]
  · exact { h with busy_done := by simp }
  · exact { h with }
  · exact inv_writeStatus h v
  · exact { h with }
  · exact { h with }
  · exact h

theorem inv_hostAct {a : HostAction} {s t : State} (h : s.Inv) (ht : hostAct a s = .next t) : t.Inv := by
  rcases hostAct_cases ht with ⟨offset, v, -, -, rfl⟩ | ⟨offset, -, -, rfl⟩ | ⟨addr, bs, -, -, -, rfl⟩ |
    ⟨addr, n, -, -, -, rfl⟩
  · exact inv_writeReg h offset v
  · exact inv_replies h _
  · exact inv_memWrite h addr bs
  · exact inv_replies h _

/-- What a successful command leaves in KEY is zero or valid (R21). -/
theorem effect_key_zero {i : Instr} {s : State} {e : Effect} (he : effect i s = .ok e)
    (h : s.kv = false → s.key = Key.zero) : e.kv = false → e.key = Key.zero := by
  have hset := effect_setsArrays he
  cases i <;> simp_all [Effect.SetsArrays]

/-- What a successful command leaves in SBOX is zero or valid (R22). -/
theorem effect_sbox_zero {i : Instr} {s : State} {e : Effect} (he : effect i s = .ok e)
    (h : s.sbv = false → s.sbox = SBoxSet.zero) : e.sbv = false → e.sbox = SBoxSet.zero := by
  have hset := effect_setsArrays he
  cases i <;> simp_all [Effect.SetsArrays]

theorem inv_complete {i : Instr} {s : State} {e : Effect} (h : s.Inv) (he : effect i s = .ok e) :
    (complete s e).Inv where
  mem_legal := legal_memWrite h.mem_legal _ _
  key_zero := effect_key_zero he h.key_zero
  sbox_zero := effect_sbox_zero he h.sbox_zero
  l_zero := rfl
  r_zero := rfl
  busy_done := by simp
  error_results := fun hne => absurd rfl hne
  no_memx_addr := fun _ => rfl
  memx_addr := fun hmemx => by cases hmemx

/-- An error completion keeps the invariants when the address of a MEMX names no byte. -/
theorem inv_raise {s : State} {err : CmdError} (h : s.Inv)
    (hbad : ∀ bad, err = .memx bad → s.mem.size ≤ (BitVec.ofNat 32 bad).toNat) : (raise s err).Inv where
  mem_legal := h.mem_legal
  key_zero := h.key_zero
  sbox_zero := h.sbox_zero
  l_zero := rfl
  r_zero := rfl
  busy_done := by simp
  error_results := fun _ => ⟨rfl, rfl⟩
  no_memx_addr := fun hne => by
    cases err with
    | memx bad => exact absurd rfl hne
    | _ => rfl
  memx_addr := fun hmemx => by
    cases err with
    | memx bad => exact hbad bad rfl
    | _ => cases hmemx

theorem inv_outcomeOf {s : State} (h : s.Inv) (i : Instr) : (outcomeOf i s).Inv := by
  rcases outcomeOf_cases i s with ⟨e, he, ht⟩ | ⟨err, he, ht⟩ <;> rw [ht]
  · exact inv_complete h he
  · refine inv_raise (inv_errorBase h i) fun bad hbad => ?_
    obtain ⟨a, -, rfl⟩ := effect_memxFromOperand i s bad (hbad ▸ he)
    have hmem : (errorBase i s).mem = s.mem := (errorBase_fields i s).1
    rw [hmem]
    exact size_le_firstAbsent_word h.mem_legal a

theorem inv_engineTurn {s t : State} (h : s.Inv) (ht : engineTurn s = .next t) : t.Inv := by
  rcases engineTurn_cases ht with ⟨-, rfl⟩ | ⟨-, i, -, rfl⟩ | ⟨-, e, -, rfl⟩
  · exact h
  · exact inv_outcomeOf h i
  · exact inv_raise h fun bad hbad => by cases hbad

theorem inv_afterReset {m : Mem} (h : m.Legal) : (State.afterReset m).Inv where
  mem_legal := h
  key_zero := fun _ => rfl
  sbox_zero := fun _ => rfl
  l_zero := rfl
  r_zero := rfl
  busy_done := by simp
  error_results := fun _ => ⟨rfl, rfl⟩
  no_memx_addr := fun _ => rfl
  memx_addr := fun hmemx => by cases hmemx

theorem inv_resetEngine {s : State} (h : s.Inv) : (resetEngine s).Inv :=
  { inv_afterReset (legal_memWrite h.mem_legal (pendingRange s).start
      (freshBytes s.freeCount (pendingRange s).count)) with }

/-! ### The state with another content of KEY (R21) -/

/-- The state with another content of KEY. -/
def State.withKey (s : State) (k : Key) : State := { s with key := k }

/-- The effect with another content of KEY. -/
def Effect.withKey (k : Key) (e : Effect) : Effect := { e with key := k }

/-- What comes of `s`, `t`, and of `s` with KEY `k`, `t'`: the same, or KEY is handed on in both. -/
def KeyApart (s : State) (k : Key) (t t' : State) : Prop := t' = t ∨ (t.key = s.key ∧ t' = t.withKey k)

/-- The commands that leave KEY as it is; the others set it. -/
def keepsKey : Instr → Bool
  | .nop | .ldsb | .stsb | .rndf _ | .fwd | .inv | .pad | .unpad => true
  | .kdf | .ldkey | .sbgen | .gensb | .enc | .dec | .zero => false

theorem effect_key_of_keepsKey {i : Instr} {s : State} {e : Effect} (hk : keepsKey i = true)
    (he : effect i s = .ok e) : e.key = s.key := by
  have hset := effect_setsArrays he
  cases i <;> simp_all [keepsKey, Effect.SetsArrays]

/-- A command that keeps KEY hands the given content on, and nothing else of its effect depends on it. -/
theorem effect_withKey_of_keepsKey {i : Instr} (hk : keepsKey i = true) (s : State) (k : Key) :
    effect i (s.withKey k) = Effect.withKey k <$> effect i s := by
  cases i with
  | nop => rfl
  | ldsb => simp only [effect, effectLdsb, map_bind]; rfl
  | stsb => simp only [effect, effectStsb, map_bind]; rfl
  | rndf rnd => simp only [effect, effectRndf, map_bind]; rfl
  | fwd => simp only [effect, effectFwd, effectBlock, map_bind]; rfl
  | inv => simp only [effect, effectInv, effectBlock, map_bind]; rfl
  | pad => simp only [effect, effectPad, map_bind]; rfl
  | unpad => simp only [effect, effectUnpad, map_bind]; rfl
  | kdf | ldkey | sbgen | gensb | enc | dec | zero => cases hk

/-- A command that sets KEY, other than SBGEN, does not look at what KEY held. -/
theorem effect_withKey_of_setsKey {i : Instr} (hk : keepsKey i = false) (hi : i ≠ .sbgen) (s : State)
    (k : Key) : effect i (s.withKey k) = effect i s := by
  cases i with
  | sbgen => exact absurd rfl hi
  | kdf | ldkey | gensb | enc | dec | zero => rfl
  | nop | ldsb | stsb | rndf | fwd | inv | pad | unpad => cases hk

theorem effect_withKey_error {i : Instr} {s : State} {err : CmdError} (hi : i ≠ .sbgen)
    (he : effect i s = .error err) (k : Key) : effect i (s.withKey k) = .error err := by
  cases hk : keepsKey i with
  | true => rw [effect_withKey_of_keepsKey hk, he]; rfl
  | false => rw [effect_withKey_of_setsKey hk hi, he]

/-- An error completion hands KEY on, or has zeroised it (R222, R255). -/
theorem raise_errorBase_withKey (i : Instr) (s : State) (err : CmdError) (k : Key) :
    KeyApart s k (raise (errorBase i s) err) (raise (errorBase i (s.withKey k)) err) := by
  cases i with
  | enc | dec => exact .inl rfl
  | _ => exact .inr ⟨rfl, rfl⟩

/-- The completion of any command but SBGEN. -/
theorem outcomeOf_withKey {i : Instr} (hi : i ≠ .sbgen) (s : State) (k : Key) :
    KeyApart s k (outcomeOf i s) (outcomeOf i (s.withKey k)) := by
  cases he : effect i s with
  | error err =>
    simp only [outcomeOf, he, effect_withKey_error hi he]
    exact raise_errorBase_withKey i s err k
  | ok e =>
    cases hk : keepsKey i with
    | true =>
      have he' : effect i (s.withKey k) = .ok (e.withKey k) := by rw [effect_withKey_of_keepsKey hk, he]; rfl
      simp only [outcomeOf, he, he']
      exact .inr ⟨effect_key_of_keepsKey hk he, rfl⟩
    | false =>
      simp only [outcomeOf, effect_withKey_of_setsKey hk hi, he]
      exact .inl rfl

theorem engineTurn_withKey {s t : State} (hsb : s.busy = true → decode s.cmd ≠ .ok .sbgen)
    (ht : engineTurn s = .next t) (k : Key) :
    ∃ t', engineTurn (s.withKey k) = .next t' ∧ KeyApart s k t t' := by
  rcases engineTurn_cases ht with ⟨hb, rfl⟩ | ⟨hb, i, hd, rfl⟩ | ⟨hb, e, hd, rfl⟩
  · exact ⟨_, engineTurn_idle hb, .inr ⟨rfl, rfl⟩⟩
  · have hi : i ≠ .sbgen := fun h => hsb hb (h ▸ hd)
    exact ⟨_, (engineTurn_command (s := s.withKey k) hb hd).trans (exec_eq_next i _), outcomeOf_withKey hi s k⟩
  · exact ⟨_, engineTurn_illegal hb hd, .inr ⟨rfl, rfl⟩⟩

/-- No register shows KEY. -/
theorem readReg_withKey (s : State) (k : Key) (offset : Nat) : readReg (s.withKey k) offset = readReg s offset := rfl

theorem writeReg_withKey (s : State) (k : Key) (offset : Nat) (v : Word) :
    writeReg (s.withKey k) offset v = (writeReg s offset v).withKey k := by
  cases hb : s.busy <;> unfold writeReg <;> split <;> simp [writeCmd, accept, writeStatus, writeCtrl, State.withKey, hb]

theorem writeReg_key (s : State) (offset : Nat) (v : Word) : (writeReg s offset v).key = s.key := by
  rcases writeReg_cases s offset v with ⟨-, h⟩ | ⟨-, h⟩ | h | h | ⟨-, _, _, _, _, h⟩ | h <;> rw [h] <;> rfl

/-- The host neither reads nor writes KEY. -/
theorem hostAct_withKey {a : HostAction} {s t : State} (ht : hostAct a s = .next t) (k : Key) :
    t.key = s.key ∧ hostAct a (s.withKey k) = .next (t.withKey k) := by
  rcases hostAct_cases ht with ⟨offset, v, rfl, ho, rfl⟩ | ⟨offset, rfl, ho, rfl⟩ |
    ⟨addr, bs, rfl, hb, hr, rfl⟩ | ⟨addr, n, rfl, hb, hr, rfl⟩
  · exact ⟨writeReg_key s offset v, by rw [hostAct_wr ho, writeReg_withKey]⟩
  · exact ⟨rfl, by rw [hostAct_rd ho, readReg_withKey]; rfl⟩
  · exact ⟨rfl, hostAct_mset hb hr⟩
  · exact ⟨rfl, hostAct_mget hb hr⟩

/-- Where a command stores does not depend on KEY; SBGEN stores nowhere. -/
theorem writeRange_withKey (i : Instr) (s : State) (k : Key) : writeRange i (s.withKey k) = writeRange i s := by
  by_cases hi : i = .sbgen
  · subst hi
    cases hkv : s.kv <;> simp [writeRange, effectSbgen, needKey, State.withKey, hkv]
  · cases hk : keepsKey i with
    | true => simp only [writeRange, effect_withKey_of_keepsKey hk]; cases effect i s <;> rfl
    | false => simp only [writeRange, effect_withKey_of_setsKey hk hi]

/-- A reset forgets KEY, and the footprint it abandons does not depend on it. -/
theorem resetEngine_withKey (s : State) (k : Key) : resetEngine (s.withKey k) = resetEngine s := by
  have hp : pendingRange (s.withKey k) = pendingRange s := by
    simp only [pendingRange, writeRange_withKey]; rfl
  simp only [resetEngine, hp]; rfl

/-! ### A command in flight and the host's register accesses (R34) -/

/-- `s'` is `s` but for what a host can change by register accesses while busy (DONE, OVR, IE) and the model's own
replies and agenda. -/
def Disturbed (s s' : State) : Prop := ∃ d o e rs ag,
  s' = { s with done := d, ovr := o, ie := e, replies := rs, agenda := ag }

theorem Disturbed.refl (s : State) : Disturbed s s := ⟨_, _, _, _, _, rfl⟩

theorem Disturbed.trans {s t u : State} (h : Disturbed s t) (h' : Disturbed t u) : Disturbed s u := by
  obtain ⟨_, _, _, _, _, rfl⟩ := h
  obtain ⟨d, o, e, rs, ag, rfl⟩ := h'
  exact ⟨d, o, e, rs, ag, rfl⟩

theorem disturbed_agenda (s : State) (ag : List Turn) : Disturbed s { s with agenda := ag } :=
  ⟨_, _, _, _, _, rfl⟩

theorem Disturbed.busy {s s' : State} (h : Disturbed s s') : s'.busy = s.busy := by
  obtain ⟨_, _, _, _, _, rfl⟩ := h; rfl

theorem Disturbed.cmd {s s' : State} (h : Disturbed s s') : s'.cmd = s.cmd := by
  obtain ⟨_, _, _, _, _, rfl⟩ := h; rfl

/-- A register access while busy is answered, and changes no more than DONE, OVR and IE. -/
theorem hostAct_busy_disturbed {s : State} {a : HostAction} (hb : s.busy = true) (ha : registerAccess a) :
    ∃ s', hostAct a s = .next s' ∧ Disturbed s s' ∧ s'.agenda = s.agenda := by
  cases a with
  | wr offset v =>
    refine ⟨_, hostAct_wr ha s v, ?_⟩
    rcases writeReg_cases s offset v with ⟨hi, -⟩ | ⟨-, h⟩ | h | h | ⟨hi, -⟩ | h
    · rw [hb] at hi; cases hi
    · rw [h]; exact ⟨⟨_, _, _, _, _, rfl⟩, rfl⟩
    · rw [h]; exact ⟨⟨_, _, _, _, _, rfl⟩, rfl⟩
    · rw [h]; exact ⟨⟨_, _, _, _, _, rfl⟩, rfl⟩
    · rw [hb] at hi; cases hi
    · rw [h]; exact ⟨.refl s, rfl⟩
  | rd offset => exact ⟨_, hostAct_rd ha s, ⟨_, _, _, _, _, rfl⟩, rfl⟩
  | mset addr bs => exact ha.elim
  | mget addr n => exact ha.elim

/-- No command reads what the host can change while busy. -/
theorem effect_disturbed {s s' : State} (h : Disturbed s s') (i : Instr) : effect i s' = effect i s := by
  obtain ⟨d, o, e, rs, ag, rfl⟩ := h
  cases i <;> rfl

theorem Disturbed.complete {s s' : State} (h : Disturbed s s') (e : Effect) :
    Disturbed (complete s e) (complete s' e) := by
  obtain ⟨_, _, _, _, _, rfl⟩ := h; exact ⟨_, _, _, _, _, rfl⟩

theorem Disturbed.raise {s s' : State} (h : Disturbed s s') (err : CmdError) :
    Disturbed (raise s err) (raise s' err) := by
  obtain ⟨_, _, _, _, _, rfl⟩ := h; exact ⟨_, _, _, _, _, rfl⟩

theorem Disturbed.errorBase {s s' : State} (h : Disturbed s s') (i : Instr) :
    Disturbed (errorBase i s) (errorBase i s') := by
  obtain ⟨_, _, _, _, _, rfl⟩ := h
  cases i <;> exact ⟨_, _, _, _, _, rfl⟩

theorem Disturbed.outcomeOf {s s' : State} (h : Disturbed s s') (i : Instr) :
    Disturbed (outcomeOf i s) (outcomeOf i s') := by
  simp only [Machine.outcomeOf, effect_disturbed h]
  cases effect i s with
  | ok e => exact h.complete e
  | error err => exact (h.errorBase i).raise err

/-- A completion leaves the engine idle and DONE set (R254, R255). -/
theorem outcomeOf_busy_done (i : Instr) (s : State) : (outcomeOf i s).busy = false ∧ (outcomeOf i s).done = true := by
  rcases outcomeOf_cases i s with ⟨e, -, h⟩ | ⟨err, -, h⟩ <;> rw [h] <;> exact ⟨rfl, rfl⟩

/-- The completion step of the command in flight is the same but for what the host can change meanwhile. -/
theorem engineTurn_disturbed {s s' t : State} (h : Disturbed s s') (hb : s.busy = true)
    (ht : engineTurn s = .next t) :
    ∃ t', engineTurn s' = .next t' ∧ Disturbed t t' ∧ t'.busy = false ∧ t'.done = true := by
  have hb' : s'.busy = true := h.busy.trans hb
  rcases engineTurn_cases ht with ⟨hi, -⟩ | ⟨-, i, hd, rfl⟩ | ⟨-, e, hd, rfl⟩
  · rw [hb] at hi; cases hi
  · exact ⟨_, (engineTurn_command hb' (h.cmd ▸ hd)).trans (exec_eq_next i s'), h.outcomeOf i,
      outcomeOf_busy_done i s'⟩
  · exact ⟨_, engineTurn_illegal hb' (h.cmd ▸ hd), h.raise _, rfl, rfl⟩

theorem runs_succ {n : Nat} {s s' : State} (h : step s = .next s') : runs (n + 1) s = runs n s' := by
  unfold runs
  have hcore : Sys2Proof.core.step s = .next s' := h
  simp only [Host.Core.run, hcore]
  rfl

/-- Any list of register accesses while busy, and then the completion step: by induction on the accesses, each of which
gives a disturbed state again. -/
theorem runs_busy_accesses {s₀ t : State} (hb : s₀.busy = true) (ht : engineTurn s₀ = .next t)
    (acts : List HostAction) (s : State) (hs : Disturbed s₀ s) (hacts : ∀ a ∈ acts, registerAccess a)
    (hag : s.agenda = acts.map .host) :
    ∃ t', runs (acts.length + 1) s = .next t' ∧ Disturbed t t' ∧ t'.busy = false ∧ t'.done = true := by
  induction acts generalizing s with
  | nil =>
    obtain ⟨t', hturn, hrest⟩ := engineTurn_disturbed (hs.trans (disturbed_agenda s [])) hb ht
    have hstep : step s = .next t' := (step_of_engineMoves (.inr ⟨hag, rfl⟩)).trans hturn
    exact ⟨t', runs_succ hstep, hrest⟩
  | cons a acts ih =>
    have hs₁ := hs.trans (disturbed_agenda s (acts.map .host))
    obtain ⟨s₂, hact, hs₂, hag₂⟩ :=
      hostAct_busy_disturbed (hs₁.busy.trans hb) (hacts a List.mem_cons_self)
    have hstep : step s = .next s₂ := (step_of_host hag).trans hact
    obtain ⟨t', hrun, hrest⟩ :=
      ih s₂ (hs₁.trans hs₂) (fun b hmem => hacts b (List.mem_cons_of_mem a hmem)) hag₂
    exact ⟨t', (runs_succ hstep).trans hrun, hrest⟩

/-! ### The flags of a completion (R42) -/

theorem effect_flags {i : Instr} {s : State} {e : Effect} (he : effect i s = .ok e) :
    (e.kv, e.sbv) = flagsAfter i s.kv s.sbv := by
  have hset := effect_setsArrays he
  cases i <;> simp_all [Effect.SetsArrays, flagsAfter]

theorem errorBase_flags (i : Instr) (s : State) : ((errorBase i s).kv, (errorBase i s).sbv) =
    if zeroisesOnError i then (false, false) else (s.kv, s.sbv) := by
  cases i <;> rfl

/-! ### The words of STATUS and CTRL (R27, R28, R250) -/

theorem bits_toNat (c : ErrCode) : c.bits.toNat = codeNumber c := by cases c <;> rfl

/-- Bits 7:0 of STATUS: the six flags, and two reserved bits. -/
theorem statusWord_low (s : State) :
    (statusWord s).getLsbD 0 = s.busy ∧ (statusWord s).getLsbD 1 = s.done ∧
    (statusWord s).getLsbD 2 = s.kv ∧ (statusWord s).getLsbD 3 = s.sbv ∧
    (statusWord s).getLsbD 4 = s.padw ∧ (statusWord s).getLsbD 5 = s.ovr ∧
    (statusWord s).getLsbD 6 = false ∧ (statusWord s).getLsbD 7 = false := by
  simp only [statusWord, BitVec.getLsbD_append]
  simp

/-- The bits of STATUS from 8 on are the error code, and zeros above it. -/
theorem statusWord_high (s : State) (i : Nat) : (statusWord s).getLsbD (8 + i) = s.err.bits.getLsbD i := by
  simp only [statusWord, BitVec.getLsbD_append, show 8 + i - 1 - 1 - 1 - 1 - 1 - 1 - 2 = i by omega]
  simp (disch := omega) only [if_neg]
  split <;> simp_all

theorem statusWord_err (s : State) : (statusWord s).extractLsb' 8 4 = s.err.bits := by
  apply BitVec.eq_of_getLsbD_eq
  intro i hi
  simp [statusWord_high, hi]

theorem statusWord_reserved (s : State) : (statusWord s).extractLsb' 12 20 = 0 := by
  apply BitVec.eq_of_getLsbD_eq
  intro i hi
  simp [BitVec.getLsbD_extractLsb', show 12 + i = 8 + (4 + i) by omega, statusWord_high]

theorem statusWord_reserved_low (s : State) : (statusWord s).extractLsb' 6 2 = 0 := by
  obtain ⟨-, -, -, -, -, -, h6, h7⟩ := statusWord_low s
  apply BitVec.eq_of_getLsbD_eq
  intro i hi
  obtain rfl | rfl : i = 0 ∨ i = 1 := by omega
  · simpa [BitVec.getLsbD_extractLsb'] using h6
  · simpa [BitVec.getLsbD_extractLsb'] using h7

/-- Bit 0 of CTRL is IE, and the others are zeros (R28). -/
theorem ctrlWord_getLsbD (s : State) (i : Nat) : (ctrlWord s).getLsbD i = (decide (i = 0) && s.ie) := by
  simp only [ctrlWord, BitVec.getLsbD_append]
  cases i <;> simp

/-- CTRL reads as bit 0 of what is written to it (R28). -/
theorem ctrlWord_writeCtrl (s : State) (v : Word) : ctrlWord (writeCtrl s v) = v &&& 1 := by
  apply BitVec.eq_of_getLsbD_eq
  intro i hi
  rw [ctrlWord_getLsbD]
  cases i <;> simp

theorem ctrlWord_eq (s : State) : ctrlWord s = if s.ie then 1 else 0 := by
  rw [ctrlWord]
  cases s.ie <;> decide

/-! ### Reset (R43) -/

theorem readReg_afterReset (m : Mem) (offset : Nat) : readReg (State.afterReset m) offset = 0 := by
  have hstatus : statusWord (State.afterReset m) = 0 := by simp [statusWord, ErrCode.bits]
  have hctrl : ctrlWord (State.afterReset m) = 0 := ctrlWord_eq _
  unfold readReg
  split
  case h_2 => exact hstatus
  case h_3 => exact hctrl
  all_goals rfl

end Sys2Proof.Machine

namespace Sys2Proof.Proofs
open Sys2Proof.Machine Sys2Proof.Claims

/-- Settles O45: each agent's turn, but the completion of SBGEN, hands KEY on or sets it without reading it. -/
theorem keyIsReadBySbgenOnly : Obligations.KeyIsReadBySbgenOnly := by
  intro s t k ht hsb
  suffices h : ∃ t', step (s.withKey k) = .next t' ∧ KeyApart s k t t' by
    obtain ⟨t', hstep, rfl | ⟨hkey, rfl⟩⟩ := h
    · exact ⟨t', hstep, rfl, .inl rfl⟩
    · exact ⟨_, hstep, rfl, .inr ⟨hkey, rfl⟩⟩
  obtain ⟨s₁, rest, rfl, ⟨hmoves, h⟩ | ⟨a, hmoves, h⟩ | ⟨hmoves, rfl⟩⟩ := step_cases ht
  · obtain ⟨t', hturn, hk⟩ := engineTurn_withKey (s := { s with agenda := rest }) (hsb rest hmoves) h k
    exact ⟨t', (step_of_engineMoves (s := s.withKey k) hmoves).trans hturn, hk⟩
  · obtain ⟨hkey, hact⟩ := hostAct_withKey h k
    exact ⟨_, (step_of_host (s := s.withKey k) hmoves).trans hact, .inr ⟨hkey, rfl⟩⟩
  · have hreset := resetEngine_withKey { s with agenda := rest } k
    exact ⟨_, (step_of_rst (s := s.withKey k) hmoves).trans (congrArg _ hreset), .inl rfl⟩

/-- Settles O58: one lemma for each agent that can move. -/
theorem everyStepKeepsTheInvariants : Obligations.EveryStepKeepsTheInvariants := by
  intro s t hs ht
  obtain ⟨s₁, rest, rfl, ⟨-, h⟩ | ⟨a, -, h⟩ | ⟨-, rfl⟩⟩ := step_cases ht
  · exact inv_engineTurn (inv_agenda hs rest) h
  · exact inv_hostAct (inv_agenda hs rest) h
  · exact inv_resetEngine (inv_agenda hs rest)

/-- Settles O10, by induction on the host's accesses. -/
theorem busyAccessesDoNotDisturbTheCommand : Obligations.BusyAccessesDoNotDisturbTheCommand := by
  intro s t acts hb hacts hag ht
  have hturn : engineTurn { s with agenda := [] } = .next t :=
    (step_of_engineMoves (s := { s with agenda := [] }) (.inr ⟨rfl, rfl⟩)).symm.trans ht
  obtain ⟨t', hrun, ⟨d, o, e, rs, ag, rfl⟩, hbusy, hdone⟩ :=
    runs_busy_accesses (s₀ := { s with agenda := [] }) hb hturn acts s (disturbed_agenda _ s.agenda) hacts hag
  exact ⟨_, hrun, rfl, rfl, rfl, rfl, rfl, rfl, rfl, rfl, rfl, rfl, rfl, rfl, rfl, rfl, hbusy, hdone⟩

/-- Settles O28: a completion is normal, and then follows the row of R42, or with an error. -/
theorem flagEffectsFollowTheTable : Obligations.FlagEffectsFollowTheTable := by
  refine ⟨fun i s t ht => ?_, fun s t rest e hmoves hb hd ht => ?_⟩
  · rcases exec_cases ht with ⟨e, he, rfl⟩ | ⟨err, he, rfl⟩
    · have hset := effect_setsArrays he
      refine ⟨rfl, rfl, fun _ => effect_flags he, fun hne => absurd rfl hne, ?_, ?_, fun _ => rfl⟩
      · rintro (rfl | rfl) - <;> obtain ⟨hkey, -, -⟩ := hset <;> exact hkey
      · rintro (rfl | rfl | rfl) <;> obtain ⟨hkey, -, hsbox, -⟩ := hset <;> exact ⟨hkey, hsbox⟩
    · have hne : (raise (errorBase i s) err).err ≠ .ok := code_ne_ok err
      refine ⟨rfl, rfl, fun hok => absurd hok hne, fun _ => errorBase_flags i s,
        fun _ hok => absurd hok hne, ?_, ?_⟩
      · rintro (rfl | rfl | rfl)
        · exact ⟨rfl, rfl⟩
        · exact ⟨rfl, rfl⟩
        · cases he
      · rintro (rfl | rfl) <;> cases he
  · rw [step_of_engineMoves hmoves, engineTurn_illegal (s := { s with agenda := rest }) hb hd] at ht
    cases ht
    exact ⟨rfl, rfl, code_ne_ok .illcmd, rfl, rfl⟩

/-- Settles O34: from the bits of `statusWord`, low and high. -/
theorem statusReadsItsFieldsAndClearsTwo : Obligations.StatusReadsItsFieldsAndClearsTwo := by
  intro s v
  obtain ⟨hbusy, hdone, hkv, hsbv, hpadw, hovr, -, -⟩ := statusWord_low s
  have herr : ((statusWord s).extractLsb' 8 4).toNat = codeNumber s.err := by rw [statusWord_err, bits_toNat]
  exact ⟨hbusy, hdone, hkv, hsbv, hpadw, hovr, statusWord_reserved_low s, herr, statusWord_reserved s,
    hostAct_wr (by decide) s v⟩

/-- Settles O6: the engine's turn on a busy state is exec of the decoded command. -/
theorem stepRunsTheDecodedCommand : Obligations.StepRunsTheDecodedCommand := by
  intro s rest i hmoves hb hd
  rw [step_of_engineMoves hmoves]
  exact engineTurn_command hb hd

/-- Settles O35: from the bits of `ctrlWord`. -/
theorem ctrlHoldsOnlyTheInterruptEnable : Obligations.CtrlHoldsOnlyTheInterruptEnable := by
  intro s v
  have hwrite : hostAct (.wr 0x08 v) s = .next (writeCtrl s v) := hostAct_wr (by decide) s v
  refine ⟨?_, hwrite, fun t ht => ?_⟩
  · exact ctrlWord_eq s
  · rw [hwrite] at ht
    cases ht
    exact ctrlWord_writeCtrl s v

/-- Settles O36: each register's line of `writeReg` with BUSY = 0. -/
theorem idleHostWritesTakeEffect : Obligations.IdleHostWritesTakeEffect := by
  intro s v hb
  refine ⟨?_, rfl, rfl, ?_, ?_, ?_, ?_, rfl, rfl⟩
  · rw [hostAct_wr (by decide)]
    exact congrArg _ (writeCmd_idle hb v)
  all_goals rw [hostAct_wr (by decide)]; simp [writeReg, hb]

/-- Settles O37: each register's line of `writeReg` with BUSY = 1. -/
theorem busyHostWritesAreLostButForStatusAndCtrl : Obligations.BusyHostWritesAreLostButForStatusAndCtrl := by
  intro s v hb
  refine ⟨?_, rfl, rfl, fun offset hmem => ?_⟩
  · rw [hostAct_wr (by decide)]
    exact congrArg _ (writeCmd_busy hb v)
  · have haligned : offset % 4 = 0 := by revert offset; decide
    rw [hostAct_wr haligned, writeReg_ignored_busy hb v offset hmem]

/-- Settles O38: by the offset: aligned or not, mapped or not. -/
theorem registerReadsHaveNoSideEffect : Obligations.RegisterReadsHaveNoSideEffect := by
  intro s offset v
  refine ⟨fun h => hostAct_rd h s, ⟨rfl, rfl, rfl, rfl, rfl, rfl, rfl⟩, fun h hu => ?_, fun h => ?_⟩
  · exact ⟨readReg_unmapped s hu, by rw [hostAct_wr h, writeReg_unmapped s hu]⟩
  · exact ⟨hostAct_rd_misaligned h s, hostAct_wr_misaligned h s v⟩

/-- Settles O41: every field of `afterReset` is zero, and so is every register made of them. -/
theorem resetClearsTheWholeEngine : Obligations.ResetClearsTheWholeEngine := by
  intro m offset
  refine ⟨?_, rfl, ?_, rfl, ?_, readReg_afterReset m offset, rfl, rfl, rfl⟩
  · simp [Key.zero]
  · simp [SBoxSet.zero]
  · simp [Half.zero]

/-- Settles O59: the memory of `State.reset` is legal too. -/
theorem resetSatisfiesTheInvariants : Obligations.ResetSatisfiesTheInvariants :=
  ⟨inv_afterReset ⟨reset_mem_wf, by decide, by decide⟩, fun _ hm => inv_afterReset hm⟩

end Sys2Proof.Proofs

/-! SUPPORT. Proofs of the statements of spec/20_memory.md: CheckRange, ScanZ, MemRead and MemWrite, the host's accesses
to MEM, and the footprints of the commands. The lemmas come first, by the operation they speak of; each settled
statement cites them. -/

namespace Sys2Proof.Machine
open Sys2Proof.Claims

/-! ### The address a failing access names (R66, R67) -/

theorem firstAbsent_eq_max (m : Mem) (a : Nat) : m.firstAbsent a = max a m.size := by
  simp only [Mem.firstAbsent]; split <;> omega

/-! ### The host's accesses to MEM (R60, R295) -/

theorem hostAct_mset_busy {s : State} (hb : s.busy = true) (addr : Nat) (bs : List Byte) :
    hostAct (.mset addr bs) s = .refused .hostMemWhileBusy := by simp [hostAct, hb]

theorem hostAct_mget_busy {s : State} (hb : s.busy = true) (addr n : Nat) :
    hostAct (.mget addr n) s = .refused .hostMemWhileBusy := by simp [hostAct, hb]

theorem hostAct_mset_absent {s : State} {addr : Nat} {bs : List Byte} (hb : s.busy = false)
    (h : ¬ (bs.length = 0 ∨ addr + bs.length ≤ s.mem.size)) :
    hostAct (.mset addr bs) s = .fault (.hostAddressAbsent (max addr s.mem.size)) := by
  simp [hostAct, hb, checkRange_error h, firstAbsent_eq_max]

theorem hostAct_mget_absent {s : State} {addr n : Nat} (hb : s.busy = false)
    (h : ¬ (n = 0 ∨ addr + n ≤ s.mem.size)) :
    hostAct (.mget addr n) s = .fault (.hostAddressAbsent (max addr s.mem.size)) := by
  simp [hostAct, hb, checkRange_error h, firstAbsent_eq_max]

/-! ### The one store of a command (R65, R70, R72) -/

/-- The "writes" column of R72 as a number of bytes, for a command whose effect is `e`. -/
def storedLength (i : Instr) (s : State) (e : Effect) : Nat :=
  match i with
  | .stsb => 4096
  | .rndf _ => 4
  | .fwd | .inv => 8
  | .pad => s.len.toNat + padLen s.len.toNat
  | .enc | .dec => e.outlen
  | .nop | .kdf | .ldkey | .sbgen | .gensb | .ldsb | .unpad | .zero => 0

/-- A successful command stores as many bytes as R72 says, and any at DST. -/
theorem effect_store {i : Instr} {s : State} {e : Effect} (he : effect i s = .ok e) :
    e.storeBytes.length = storedLength i s e ∧ (e.storeBytes.length = 0 ∨ e.storeAddr = s.dst.toNat) := by
  cases i with
  | nop | zero => cases he; exact ⟨rfl, .inl rfl⟩
  | kdf => obtain ⟨_, _, rfl⟩ := effectKdf_ok.mp he; exact ⟨rfl, .inl rfl⟩
  | ldkey => obtain ⟨_, rfl⟩ := effectLdkey_ok.mp he; exact ⟨rfl, .inl rfl⟩
  | sbgen => obtain ⟨_, rfl⟩ := effectSbgen_ok.mp he; exact ⟨rfl, .inl rfl⟩
  | gensb => obtain ⟨_, _, rfl⟩ := effectGensb_ok.mp he; exact ⟨rfl, .inl rfl⟩
  | ldsb => obtain ⟨_, rfl⟩ := effectLdsb_ok.mp he; exact ⟨rfl, .inl rfl⟩
  | unpad => obtain ⟨_, _, _, rfl⟩ := effectUnpad_ok.mp he; exact ⟨rfl, .inl rfl⟩
  | stsb => obtain ⟨_, _, rfl⟩ := effectStsb_ok.mp he; exact ⟨flatOf_length s.sbox, .inr rfl⟩
  | rndf rnd => obtain ⟨_, _, _, rfl⟩ := effectRndf_ok.mp he; exact ⟨Vector.length_toList, .inr rfl⟩
  | fwd | inv => obtain ⟨_, _, _, rfl⟩ := effectBlock_ok.mp he; exact ⟨Vector.length_toList, .inr rfl⟩
  | pad => obtain ⟨_, _, rfl⟩ := effectPad_ok.mp he; exact ⟨by simp [addPadding, storedLength], .inr rfl⟩
  | enc =>
    obtain ⟨_, _, _, _, _, rfl⟩ := effectEnc_ok.mp he
    exact ⟨by simp [encrypt_length, addPadding, storedLength], .inr rfl⟩
  | dec => obtain ⟨_, _, _, _, _, _, rfl⟩ := effectDec_ok.mp he; exact ⟨rfl, .inr rfl⟩

/-- The stored bytes are fewer than 2^32, so OUTLEN counts them without a wrap (R30, R6). -/
theorem effect_store_length_lt {i : Instr} {s : State} {e : Effect} (hm : s.mem.Legal)
    (he : effect i s = .ok e) : e.storeBytes.length < 2 ^ 32 := by
  have hsize := hm.size_le
  rcases effect_store_in_range he with h | h
  · simp [h]
  · omega

/-- After a normal completion R72's count is the number of bytes stored. -/
theorem storeCount_complete {i : Instr} {s : State} {e : Effect} (hm : s.mem.Legal)
    (he : effect i s = .ok e) : storeCount i s (complete s e) = e.storeBytes.length := by
  have hlt := effect_store_length_lt hm he
  rw [(effect_store he).1] at hlt ⊢
  cases i with
  | enc | dec => simpa [storeCount, storedLength] using hlt
  | _ => rfl

theorem storeCount_raise (i : Instr) (s s' : State) (err : CmdError) : storeCount i s (raise s' err) = 0 :=
  if_neg (code_ne_ok err)

theorem writeRange_of_ok {i : Instr} {s : State} {e : Effect} (he : effect i s = .ok e) :
    writeRange i s = ⟨e.storeAddr, e.storeBytes.length⟩ := by simp [writeRange, he]

theorem writeRange_of_error {i : Instr} {s : State} {err : CmdError} (he : effect i s = .error err) :
    writeRange i s = ⟨0, 0⟩ := by simp [writeRange, he]

theorem Range.not_has_of_count_zero {rg : Range} (h : rg.count = 0) (x : Nat) : ¬ rg.has x := by
  rintro ⟨hlo, hhi⟩; omega

/-- A command that R72 lets store nothing has an empty write footprint, over any memory. -/
theorem writeRange_count_zero {i : Instr} {s : State} (h : ∀ e, storedLength i s e = 0) :
    (writeRange i s).count = 0 := by
  cases he : effect i s with
  | ok e => rw [writeRange_of_ok he]; exact (effect_store he).1.trans (h e)
  | error err => rw [writeRange_of_error he]

theorem writeRange_count (i : Instr) {s : State} (hm : s.mem.Legal) :
    (writeRange i s).count = storeCount i s (outcomeOf i s) := by
  rcases outcomeOf_cases i s with ⟨e, he, ht⟩ | ⟨err, he, ht⟩ <;> rw [ht]
  · rw [writeRange_of_ok he, storeCount_complete hm he]
  · rw [writeRange_of_error he, storeCount_raise]

theorem writeRange_start (i : Instr) (s : State) (h : (writeRange i s).count ≠ 0) :
    (writeRange i s).start = s.dst.toNat := by
  cases he : effect i s with
  | ok e =>
    rw [writeRange_of_ok he] at h ⊢
    exact (effect_store he).2.resolve_left h
  | error err => rw [writeRange_of_error he] at h; exact absurd rfl h

/-- A command changes no byte outside its write footprint (R65, R255). -/
theorem outcomeOf_byte_outside (i : Instr) (s : State) {x : Nat} (hx : ¬ (writeRange i s).has x) :
    (outcomeOf i s).mem.byte x = s.mem.byte x := by
  rcases outcomeOf_cases i s with ⟨e, he, ht⟩ | ⟨err, he, ht⟩ <;> rw [ht]
  · rw [writeRange_of_ok he] at hx
    exact memWrite_byte_outside _ _ _ _ (by simp only [Range.has] at hx; omega)
  · rw [raise_mem, (errorBase_fields i s).1]

/-! ### What every command leaves unchanged (R254, R255) -/

/-- The size of MEM, CMD, IE, OVR, the operand registers and the model's own fields are the same in both states. -/
structure SameFrame (s t : State) : Prop where
  size : t.mem.size = s.mem.size
  cmd : t.cmd = s.cmd
  ie : t.ie = s.ie
  ovr : t.ovr = s.ovr
  src : t.src = s.src
  dst : t.dst = s.dst
  len : t.len = s.len
  pwa : t.pwa = s.pwa
  agenda : t.agenda = s.agenda
  replies : t.replies = s.replies
  freeCount : t.freeCount = s.freeCount

theorem outcomeOf_sameFrame (i : Instr) (s : State) : SameFrame s (outcomeOf i s) := by
  rcases outcomeOf_cases i s with ⟨e, -, ht⟩ | ⟨err, -, ht⟩ <;> rw [ht]
  · exact ⟨memWrite_size _ _ _, rfl, rfl, rfl, rfl, rfl, rfl, rfl, rfl, rfl, rfl⟩
  · rcases errorBase_cases i s with h | h <;> rw [h] <;>
      exact ⟨rfl, rfl, rfl, rfl, rfl, rfl, rfl, rfl, rfl, rfl, rfl⟩

/-- A command that sets neither KEY nor its flag, whether it succeeds or not. -/
theorem outcomeOf_key {i : Instr} (hk : keepsKey i = true) (s : State) :
    (outcomeOf i s).key = s.key ∧ (outcomeOf i s).kv = s.kv := by
  rcases outcomeOf_cases i s with ⟨e, he, ht⟩ | ⟨err, -, ht⟩ <;> rw [ht]
  · have hset := effect_setsArrays he
    cases i <;> simp_all [keepsKey, Effect.SetsArrays]
  · cases i <;> simp_all [keepsKey, errorBase]

/-- The commands that leave SBOX and SBV as they are; the others set them. -/
def keepsTables : Instr → Bool
  | .nop | .kdf | .ldkey | .stsb | .rndf _ | .fwd | .inv | .pad | .unpad => true
  | .sbgen | .gensb | .ldsb | .enc | .dec | .zero => false

theorem outcomeOf_tables {i : Instr} (hk : keepsTables i = true) (s : State) :
    (outcomeOf i s).sbox = s.sbox ∧ (outcomeOf i s).sbv = s.sbv := by
  rcases outcomeOf_cases i s with ⟨e, he, ht⟩ | ⟨err, -, ht⟩ <;> rw [ht]
  · have hset := effect_setsArrays he
    cases i <;> simp_all [keepsTables, Effect.SetsArrays]
  · cases i <;> simp_all [keepsTables, errorBase]

/-! ### Two memories that agree on a range (R64, R66, R67) -/

/-- The two memories hold the same bytes in the range. -/
def AgreeOn (m m' : Mem) (rg : Range) : Prop := ∀ x, rg.has x → m'.byte x = m.byte x

section AgreeOn
variable {m m' : Mem} {a : Nat}

theorem firstAbsent_congr (hs : m'.size = m.size) (a : Nat) : m'.firstAbsent a = m.firstAbsent a := by
  rw [firstAbsent_eq_max, firstAbsent_eq_max, hs]

/-- CheckRange looks at the size of MEM only. -/
theorem checkRange_congr (hs : m'.size = m.size) (a n : Nat) : checkRange m' a n = checkRange m a n := by
  simp only [checkRange, hs, firstAbsent_congr hs]

theorem memRead_congr {n : Nat} (h : AgreeOn m m' ⟨a, n⟩) : memRead m' a n = memRead m a n := by
  apply List.map_congr_left
  intro i hi
  exact h (a + i) ⟨Nat.le_add_right a i, Nat.add_lt_add_left (List.mem_range.mp hi) a⟩

theorem scanRange_of_ok {bs : List Byte} (h : scanZ m a = .ok bs) : scanRange m a = ⟨a, bs.length + 1⟩ := by
  simp [scanRange, h]

theorem scanRange_of_error {err : CmdError} (h : scanZ m a = .error err) : scanRange m a = ⟨a, m.size - a⟩ := by
  simp [scanRange, h]

/-- A scan depends on the bytes it reads: the string and its terminator, or all that is left of MEM. -/
theorem scanZ_congr (hs : m'.size = m.size) (h : AgreeOn m m' (scanRange m a)) : scanZ m' a = scanZ m a := by
  rcases scanZ_cases m a with ⟨bs, hok, hlen, hbs, hz⟩ | ⟨herr, hno⟩
  · rw [scanRange_of_ok hok] at h
    have hsame : ∀ i ≤ bs.length, m'.byte (a + i) = m.byte (a + i) :=
      fun i hi => h _ ⟨Nat.le_add_right a i, by simp only; omega⟩
    rw [hok]
    refine scanZ_ok (hs ▸ hlen) (fun i hi => ?_) ((hsame _ le_rfl).trans hz)
    rw [hsame i hi.le]
    exact hbs i hi
  · rw [scanRange_of_error herr] at h
    rw [herr, ← firstAbsent_congr hs]
    refine scanZ_error fun x hx hlt => ?_
    rw [hs] at hlt
    rw [h x ⟨hx, by simp only; omega⟩]
    exact hno x hx hlt

/-- One store into two memories of one size leaves the same bytes where it lies in MEM. -/
theorem memWrite_byte_congr (hs : m'.size = m.size) {bs : List Byte} (hm : a + bs.length ≤ m.size) {x : Nat}
    (hlo : a ≤ x) (hhi : x < a + bs.length) : (memWrite m' a bs).byte x = (memWrite m a bs).byte x := by
  obtain ⟨i, rfl⟩ := Nat.exists_eq_add_of_le hlo
  have hi : i < bs.length := by omega
  rw [memWrite_byte_inside m' a i bs hi (hs ▸ hm), memWrite_byte_inside m a i bs hi hm]

end AgreeOn

/-! ### A command over another memory (R70, R72) -/

section WithMem
variable {i : Instr} {s : State} {m' : Mem}

/-- What a command that raises nothing starts from does not look at MEM. -/
theorem effectNone_withMem (s : State) (m' : Mem) : Effect.none { s with mem := m' } = Effect.none s := rfl

theorem effectBlock_withMem (hs : m'.size = s.mem.size) (h : AgreeOn s.mem m' ⟨operand s.src, 8⟩)
    (f : Block → SBoxSet → Block) : effectBlock f { s with mem := m' } = effectBlock f s := by
  simp only [effectBlock, checkRange_congr hs, memRead_congr h, effectNone_withMem, needTables]

/-- The effect of a command is a function of its checks, which look at the size of MEM, and of the bytes of its read
footprint. -/
theorem effect_withMem (hs : m'.size = s.mem.size) (h : ∀ rg ∈ readRanges i s, AgreeOn s.mem m' rg) :
    effect i { s with mem := m' } = effect i s := by
  cases i with
  | nop | zero | sbgen => rfl
  | stsb => simp only [effect_stsb, effectStsb, checkRange_congr hs, effectNone_withMem, needTables]
  | kdf | gensb =>
    obtain ⟨hpw, -⟩ := List.forall_mem_cons.mp h
    simp only [effect, effectKdf, effectGensb, scanZ_congr hs hpw, effectNone_withMem]
  | ldkey | ldsb | rndf rnd | pad | unpad =>
    obtain ⟨hsrc, -⟩ := List.forall_mem_cons.mp h
    simp only [effect, effectLdkey, effectLdsb, effectRndf, effectPad, effectUnpad, checkRange_congr hs,
      memRead_congr hsrc, effectNone_withMem, needTables]
  | fwd => exact effectBlock_withMem hs (List.forall_mem_cons.mp h).1 forward
  | inv => exact effectBlock_withMem hs (List.forall_mem_cons.mp h).1 inverse
  | enc =>
    obtain ⟨hpt, hrest⟩ := List.forall_mem_cons.mp h
    obtain ⟨hpw, -⟩ := List.forall_mem_cons.mp hrest
    simp only [effect_enc, effectEnc, scanZ_congr hs hpt, scanZ_congr hs hpw, checkRange_congr hs, effectNone_withMem]
  | dec =>
    obtain ⟨hpw, hrest⟩ := List.forall_mem_cons.mp h
    obtain ⟨hsrc, -⟩ := List.forall_mem_cons.mp hrest
    simp only [effect_dec, effectDec, scanZ_congr hs hpw, memRead_congr hsrc, checkRange_congr hs, effectNone_withMem]

/-- Where the effect is the same, so is the next state but for MEM. -/
theorem outcomeOf_withMem (he : effect i { s with mem := m' } = effect i s) :
    outcomeOf i { s with mem := m' } = { outcomeOf i s with mem := (outcomeOf i { s with mem := m' }).mem } := by
  cases h : effect i s with
  | ok e => simp only [outcomeOf, he, h]; rfl
  | error err => simp only [outcomeOf, he, h]; cases i <;> rfl

/-- Where the effect is the same, so are the bytes of the write footprint. -/
theorem outcomeOf_withMem_byte (hs : m'.size = s.mem.size) (he : effect i { s with mem := m' } = effect i s)
    {x : Nat} (hx : (writeRange i s).has x) :
    (outcomeOf i { s with mem := m' }).mem.byte x = (outcomeOf i s).mem.byte x := by
  cases h : effect i s with
  | ok e =>
    rw [writeRange_of_ok h] at hx
    obtain ⟨hlo, hhi⟩ := hx
    simp only [outcomeOf, he, h, complete_mem]
    refine memWrite_byte_congr hs ((effect_store_in_range h).resolve_left fun hnil => ?_) hlo hhi
    simp only [hnil, List.length_nil] at hlo hhi
    omega
  | error err => rw [writeRange_of_error h] at hx; exact absurd hx (Range.not_has_of_count_zero rfl x)

end WithMem

end Sys2Proof.Machine

namespace Sys2Proof.Proofs
open Sys2Proof.Machine Sys2Proof.Claims

/-- Settles O31: from what a read returns inside and outside the stored range. -/
theorem memWriteSetsItsBytesOnly : Obligations.MemWriteSetsItsBytesOnly := by
  intro m a v hv
  have hinside : ∀ i (h : i < v.length), (memWrite m a v).byte (a + i) = v[i] :=
    fun i h => memWrite_byte_inside m a i v h (by omega)
  exact ⟨hinside, fun x hx => memWrite_byte_outside m a x v hx, memRead_eq_of_bytes hinside,
    memWrite_size m a v, fun hwf => memWrite_wf hwf a v⟩

/-- Settles O32: the address a failing CheckRange names is the greater of the start of the range and MEM_BYTES. -/
theorem checkRangeFindsTheLowestAbsentAddress : Obligations.CheckRangeFindsTheLowestAbsentAddress := by
  intro m addr n
  refine ⟨checkRange_ok, fun h => ⟨_, checkRange_error h, ?_⟩⟩
  rw [firstAbsent_eq_max]
  refine ⟨by omega, by omega, by omega, by omega, by omega, by omega, fun hm => ?_⟩
  have haddr := addr.isLt
  have hsize := hm.size_le
  omega

/-- Settles O33: the bytes before the first zero byte are the string that lies there. -/
theorem scanZStopsAtTheFirstZeroByte : Obligations.ScanZStopsAtTheFirstZeroByte := by
  intro m addr
  refine ⟨fun k hk hz hne => ?_, scanZ_error, fun bs hok => ?_⟩
  · refine scanZ_ok (by simpa using hk) (fun i hi => ?_) (by simpa using hz)
    rw [memRead_getElem]
    exact ⟨rfl, hne i (by simpa using hi)⟩
  · rcases scanZ_cases m addr with ⟨bs', hok', -, hbs, -⟩ | ⟨herr, -⟩
    · cases hok.symm.trans hok'
      intro hmem
      obtain ⟨i, hi, hzero⟩ := List.mem_iff_getElem.mp hmem
      exact (hbs i hi).2 hzero
    · cases hok.symm.trans herr

/-- Settles O39: by BUSY and by what CheckRange answers. -/
theorem hostReachesMemOnlyWhileIdle : Obligations.HostReachesMemOnlyWhileIdle := by
  intro s addr bs n
  refine ⟨fun hb => ⟨hostAct_mset_busy hb addr bs, hostAct_mget_busy hb addr n⟩, fun hb hr => ?_, fun hb hr => ?_,
    fun hb hne hlt => ?_, fun hb hne hlt => hostAct_mget_absent hb (by omega)⟩
  · rw [← List.length_eq_zero_iff] at hr
    exact ⟨_, hostAct_mset hb hr, memWrite_size _ _ _,
      fun i h => memWrite_byte_inside _ _ i bs h (by omega), fun x hx => memWrite_byte_outside _ _ x bs hx⟩
  · exact ⟨_, hostAct_mget hb hr, memRead_length _ _ _, fun i h => memRead_getElem _ _ _ i h⟩
  · rw [← List.length_pos_iff] at hne
    exact hostAct_mset_absent hb (by omega)

/-- Settles O43: the footprint is the range of the command's one store. -/
theorem writeFootprintFollowsTheTable : Obligations.WriteFootprintFollowsTheTable := by
  intro i s t hm ht
  rw [exec_eq_next] at ht
  cases ht
  exact ⟨writeRange_count i hm, writeRange_start i s⟩

/-- Settles O26: these commands have an empty write footprint, and set the arrays as the rows of R42 say. -/
theorem frameOfTheCommandsThatStoreNothing : Obligations.FrameOfTheCommandsThatStoreNothing := by
  intro i s t hi ht
  rw [exec_eq_next] at ht
  cases ht
  have hnone : ∀ e, storedLength i s e = 0 := by
    rcases hi with rfl | rfl | rfl | rfl | rfl | rfl | rfl | rfl <;> exact fun _ => rfl
  obtain ⟨hsize, hcmd, hie, hovr, hsrc, hdst, hlen, hpwa, hagenda, hreplies, hfree⟩ := outcomeOf_sameFrame i s
  refine ⟨fun x => outcomeOf_byte_outside i s (Range.not_has_of_count_zero (writeRange_count_zero hnone) x),
    hsize, hcmd, hie, hovr, hsrc, hdst, hlen, hpwa, hagenda, hreplies, hfree, fun h => ?_, fun h => ?_⟩
  · exact outcomeOf_key (by rcases h with rfl | rfl | rfl <;> rfl) s
  · exact outcomeOf_tables (by rcases h with rfl | rfl | rfl | rfl <;> rfl) s

/-- Settles O27: outside the write footprint, which is at DST, no byte changes. -/
theorem frameOfTheCommandsThatStore : Obligations.FrameOfTheCommandsThatStore := by
  intro i s t hm hi ht
  rw [exec_eq_next] at ht
  cases ht
  obtain ⟨hsize, hcmd, hie, hovr, hsrc, hdst, hlen, hpwa, hagenda, hreplies, hfree⟩ := outcomeOf_sameFrame i s
  refine ⟨fun x hx => outcomeOf_byte_outside i s ?_,
    hsize, hcmd, hie, hovr, hsrc, hdst, hlen, hpwa, hagenda, hreplies, hfree, fun hz => ?_⟩
  · rintro ⟨hlo, hhi⟩
    have hstart := writeRange_start i s (by omega)
    have hcount := writeRange_count i hm
    omega
  · have hkeep : keepsKey i = true ∧ keepsTables i = true := by
      rcases hi with rfl | ⟨_, rfl⟩ | rfl | rfl | rfl | rfl | rfl <;>
        simp_all [keepsKey, keepsTables, zeroisesOnError]
    obtain ⟨hkey, hkv⟩ := outcomeOf_key hkeep.1 s
    obtain ⟨hsbox, hsbv⟩ := outcomeOf_tables hkeep.2 s
    exact ⟨hkey, hkv, hsbox, hsbv⟩

/-- Settles O44: the two memories give one effect, and the next state is made of the effect. -/
theorem commandDependsOnlyOnItsReadFootprint : Obligations.CommandDependsOnlyOnItsReadFootprint := by
  intro i s m' hs hread
  have he : effect i { s with mem := m' } = effect i s := effect_withMem hs hread
  have hw : writeRange i { s with mem := m' } = writeRange i s := by simp only [writeRange, he]
  refine ⟨_, _, exec_eq_next i s, exec_eq_next i _, outcomeOf_withMem he, hw, fun x => ?_⟩
  refine ⟨fun hx _ => ?_, fun hx => ?_⟩
  · exact outcomeOf_withMem_byte hs he hx
  · exact outcomeOf_byte_outside i { s with mem := m' } (hw ▸ hx)

end Sys2Proof.Proofs

/-! SUPPORT. Proofs of the statements of spec/30_encoding.md: the decoder, the encoder, the opcode map, the legal words
and the completion of an illegal one. The lemmas come first; each settled statement cites them. -/

namespace Sys2Proof
open Sys2Proof.Claims

/-! ### A word and its fields (R90, R91) -/

/-- A word is put together from some fields exactly when these are its fields. -/
theorem eq_word_iff (w : Word) (f : Fields) : w = f.word ↔ fieldsOf w = f := by
  constructor
  · rintro rfl
    exact fieldsOf_word f
  · rintro rfl
    exact (word_fieldsOf w).symm

/-- Masking a word masks each of its fields. -/
theorem fieldsOf_and (w m : Word) :
    fieldsOf (w &&& m) =
      ⟨(fieldsOf w).zero &&& (fieldsOf m).zero, (fieldsOf w).rnd &&& (fieldsOf m).rnd,
        (fieldsOf w).op &&& (fieldsOf m).op⟩ := by
  simp [fieldsOf, BitVec.extractLsb'_and]

/-- Fields are RNDF's, with their own round index, exactly when no high bit is set and the opcode is 0x07. -/
theorem Fields.eq_rndf_iff (f : Fields) : f = (Instr.rndf f.rnd).fields ↔ f.zero = 0 ∧ f.op = 7 := by
  cases f
  simp [Instr.fields, Fields.formatR]

/-! ### Which fields are a command's (R93, R96) -/

/-- The fields of every command are legal. -/
theorem fields_wf (i : Instr) : i.fields.wf = true := by
  cases i with
  | rndf rnd => exact (Laws.FieldsLegal.rndf rnd).1
  | _ => decide

/-- Legal fields: no high bit, an opcode of the map, and a round index only beside opcode 0x07 (R96). -/
theorem Fields.wf_iff (f : Fields) :
    f.wf = true ↔ f.zero = 0 ∧ f.op.toNat ≤ 0x0E ∧ (f.op = 7 ∨ f.rnd = 0) := by
  simp [Fields.wf, Fields.zeroOk, Fields.opOk, Fields.rndOk, and_assoc]

/-- Legal fields are the fields of a command: RNDF's at opcode 0x07, and the format-Z command's at any other. -/
theorem exists_fields_eq {f : Fields} (h : f.wf = true) : ∃ i : Instr, f = i.fields := by
  obtain ⟨z, r, o⟩ := f
  obtain ⟨hz, ho, hr⟩ := (Fields.wf_iff _).mp h
  simp only at hz ho hr
  subst hz
  by_cases h7 : o = 7
  · exact ⟨.rndf r, by rw [h7]; rfl⟩
  · have hr0 : r = 0 := hr.resolve_left h7
    cases hc : commandZ o with
    | none =>
      rcases (commandZ_none o).mp hc with hrndf | hreserved
      · exact absurd hrndf h7
      · omega
    | some i => exact ⟨i, by rw [commandZ_fields o i hc, hr0]⟩

/-- A word is legal exactly when its fields are. -/
theorem exists_decode_ok_iff (w : Word) : (∃ i, decode w = .ok i) ↔ (fieldsOf w).wf = true := by
  simp only [decode_ok_iff]
  constructor
  · rintro ⟨i, hi⟩
    exact hi ▸ fields_wf i
  · exact exists_fields_eq

/-- A word is illegal exactly when its fields are not legal. -/
theorem exists_decode_error_iff (w : Word) : (∃ e, decode w = .error e) ↔ ¬ (fieldsOf w).wf = true := by
  rw [← exists_decode_ok_iff]
  cases decode w <;> simp

/-- The legal words as natural numbers: up to 0x0E, or `256 * rnd + 7` (R91, R96). -/
theorem fieldsOf_wf_iff (w : Word) :
    (fieldsOf w).wf = true ↔
      w.toNat / 4096 = 0 ∧ w.toNat % 256 ≤ 0x0E ∧ (w.toNat % 256 = 7 ∨ w.toNat / 256 = 0) := by
  rw [Fields.wf_iff, ← BitVec.toNat_inj, ← BitVec.toNat_inj, ← BitVec.toNat_inj, fieldsOf_zero_toNat,
    fieldsOf_op_toNat, fieldsOf_rnd_toNat]
  change _ = 0 ∧ _ ≤ 0x0E ∧ (_ = 7 ∨ _ = 0) ↔ _
  omega

theorem mem_legalWords_iff (w : Word) :
    w ∈ legalWords ↔ w.toNat ≤ 0x0E ∨ ∃ rnd, 1 ≤ rnd ∧ rnd ≤ 15 ∧ w.toNat = 256 * rnd + 7 := by
  simp only [legalWords, List.mem_append, List.mem_map, List.mem_range, ← BitVec.toNat_inj, BitVec.toNat_ofNat]
  constructor
  · rintro (⟨k, hk, hw⟩ | ⟨k, hk, hw⟩)
    · exact .inl (by omega)
    · exact .inr ⟨k + 1, by omega, by omega, by omega⟩
  · rintro (h | ⟨rnd, h1, h15, hw⟩)
    · exact .inl ⟨w.toNat, by omega, by omega⟩
    · exact .inr ⟨rnd - 1, by omega, by omega⟩

/-! ### The opcode map (R92) -/

/-- A row of the opcode map either compares the whole word with one command's word, or is RNDF's, which leaves bits
11:8 out. -/
theorem opcodeRows_cases {row : OpcodeRow} (h : row ∈ opcodeRows) :
    (∃ i, row = ⟨encode i, 0xFFFFFFFF, fun _ => i⟩) ∨ row = ⟨0x00000007, 0xFFFFF0FF, .rndf⟩ := by
  simp only [opcodeRows, List.mem_cons, List.not_mem_nil, or_false] at h
  rcases h with rfl | rfl | rfl | rfl | rfl | rfl | rfl | rfl | rfl | rfl | rfl | rfl | rfl | rfl | rfl
  exacts [.inl ⟨.nop, rfl⟩, .inl ⟨.kdf, rfl⟩, .inl ⟨.ldkey, rfl⟩, .inl ⟨.sbgen, rfl⟩, .inl ⟨.gensb, rfl⟩,
    .inl ⟨.ldsb, rfl⟩, .inl ⟨.stsb, rfl⟩, .inr rfl, .inl ⟨.fwd, rfl⟩, .inl ⟨.inv, rfl⟩, .inl ⟨.pad, rfl⟩,
    .inl ⟨.unpad, rfl⟩, .inl ⟨.enc, rfl⟩, .inl ⟨.dec, rfl⟩, .inl ⟨.zero, rfl⟩]

/-- RNDF's row compares all fields but the round index. -/
theorem and_rndfMask_eq_iff (w : Word) :
    w &&& 0xFFFFF0FF = 0x00000007 ↔ (fieldsOf w).zero = 0 ∧ (fieldsOf w).op = 7 := by
  have hmask : fieldsOf 0xFFFFF0FF = ⟨BitVec.allOnes 20, 0, BitVec.allOnes 8⟩ := by decide
  have hword : (0x00000007 : Word) = (Fields.formatR 0 7).word := by decide
  rw [hword, eq_word_iff, fieldsOf_and, hmask, BitVec.and_allOnes, BitVec.and_allOnes]
  simp [Fields.formatR]

/-- A row selects exactly the words that decode to the command it builds. -/
theorem row_selects_iff {row : OpcodeRow} (h : row ∈ opcodeRows) (w : Word) :
    w &&& row.mask = row.pattern ↔ decode w = .ok (row.build (w.extractLsb' 8 4)) := by
  rw [decode_ok_iff]
  rcases opcodeRows_cases h with ⟨i, rfl⟩ | rfl
  · change w &&& BitVec.allOnes 32 = _ ↔ _
    rw [BitVec.and_allOnes]
    exact eq_word_iff w i.fields
  · exact (and_rndfMask_eq_iff w).trans (fieldsOf w).eq_rndf_iff.symm

/-- Row `j` builds a command of opcode `j`. -/
theorem opcodeRows_build_op {j : Nat} (hj : j < opcodeRows.length) (rnd : BitVec 4) :
    (opcodeRows[j].build rnd).fields.op.toNat = j := by
  change j < 15 at hj
  interval_cases j <;> rfl

/-- Every command is built by a row from its round index. -/
theorem exists_row_build_eq (i : Instr) : ∃ row ∈ opcodeRows, row.build i.fields.rnd = i := by
  cases i <;> simp [opcodeRows, Instr.fields, Fields.formatR]

end Sys2Proof

namespace Sys2Proof.Proofs
open Sys2Proof.Machine Sys2Proof.Claims

/-- Settles O1: decoding is by the fields, and a word and its fields determine each other. -/
theorem decodeExactlyInvertsEncode : Obligations.DecodeExactlyInvertsEncode := by
  intro w i
  rw [decode_ok_iff]
  exact (eq_word_iff w i.fields).symm

/-- Settles O2: a row selects the words that decode to what it builds, and two rows build different opcodes. -/
theorem opcodeMapSelectsAtMostOneRow : Obligations.OpcodeMapSelectsAtMostOneRow := by
  intro w
  refine ⟨fun j k hj hk hselj hselk => ?_, fun i => ⟨fun hd => ?_, ?_⟩⟩
  · have hdj := (row_selects_iff (List.getElem_mem hj) w).mp hselj
    have hdk := (row_selects_iff (List.getElem_mem hk) w).mp hselk
    have hbuild := Except.ok.inj (hdj.symm.trans hdk)
    rw [← opcodeRows_build_op hj (w.extractLsb' 8 4), hbuild, opcodeRows_build_op hk]
  · obtain ⟨row, hrow, hbuild⟩ := exists_row_build_eq i
    have hrnd : w.extractLsb' 8 4 = i.fields.rnd := congrArg Fields.rnd ((decode_ok_iff w i).mp hd)
    rw [← hrnd] at hbuild
    exact ⟨row, hrow, (row_selects_iff hrow w).mpr (by rw [hbuild, hd]), hbuild⟩
  · rintro ⟨row, hrow, hsel, rfl⟩
    exact (row_selects_iff hrow w).mp hsel

/-- Settles O3: each clause by which words have legal fields. -/
theorem decodeReadsTheThreeFields : Obligations.DecodeReadsTheThreeFields := by
  intro w
  refine ⟨fun hz => ?_, fun hz h7 => ⟨(fieldsOf w).rnd, ?_, ?_⟩, fun hz h7 hop hr => ?_, fun hz h7 hbad => ?_⟩
  · rw [exists_decode_error_iff, fieldsOf_wf_iff]
    omega
  · rw [fieldsOf_rnd_toNat]
    omega
  · rw [decode_ok_iff, Fields.eq_rndf_iff]
    exact ⟨BitVec.eq_of_toNat_eq ((fieldsOf_zero_toNat w).trans hz),
      BitVec.eq_of_toNat_eq ((fieldsOf_op_toNat w).trans h7)⟩
  · obtain ⟨i, hi⟩ := (exists_decode_ok_iff w).mpr ((fieldsOf_wf_iff w).mpr (by omega))
    refine ⟨i, hi, ?_⟩
    rw [← (decode_ok_iff w i).mp hi, fieldsOf_op_toNat]
  · rw [exists_decode_error_iff, fieldsOf_wf_iff]
    omega

/-- Settles O4: the legal words as natural numbers are the numbers of the list. -/
theorem thirtyWordsAreLegal : Obligations.ThirtyWordsAreLegal := by
  refine ⟨rfl, by decide, fun w => ?_⟩
  rw [exists_decode_ok_iff, fieldsOf_wf_iff, mem_legalWords_iff]
  constructor
  · rintro ⟨hz, hop, h7 | hr⟩
    · by_cases h : w.toNat = 7
      · exact .inl (by omega)
      · exact .inr ⟨w.toNat / 256, by omega, by omega, by omega⟩
    · exact .inl (by omega)
  · rintro (h | ⟨rnd, h1, h15, hw⟩) <;> omega

/-- Settles O5: the decoder evaluated on the sample words. -/
theorem sampleWordsDecodeAsTheMapSays : Obligations.SampleWordsDecodeAsTheMapSays := by
  unfold Obligations.SampleWordsDecodeAsTheMapSays
  decide

/-- Settles O7: the engine's turn raises ILLCMD, whose completion is `failed` with ERRADDR = 0. -/
theorem illegalWordCompletesWithIllcmd : Obligations.IllegalWordCompletesWithIllcmd := by
  intro s rest e hmoves hb hd
  rw [step_of_engineMoves hmoves]
  exact engineTurn_illegal (s := { s with agenda := rest }) hb hd

end Sys2Proof.Proofs

/-! SUPPORT. Proofs of the statements of spec/40_key_derivation.md: KDF and LDKEY, the padding of SHA-256, and its check
values. The lemmas come first, by the operation they speak of; each settled statement cites them. -/

namespace Sys2Proof.Machine
open Sys2Proof.Claims

/-! ### The two completions, in the words of the statements (R254, R255) -/

/-- A command that stores nothing completes with the arrays, the flags and the results of its effect. -/
theorem exec_eq_completed {i : Instr} {s : State} {key : Key} {kv : Bool} {sbox : SBoxSet} {sbv : Bool}
    {a outlen : Nat} {padw : Bool} (he : effect i s = .ok ⟨key, kv, sbox, sbv, a, [], outlen, padw⟩) :
    exec i s = .next (completed { s with key := key, kv := kv, sbox := sbox, sbv := sbv } outlen padw) :=
  exec_of_ok he

/-- A MEMX from an address operand on records the lowest absent address; only ENC and DEC change anything else. -/
theorem exec_eq_failed_memx {i : Instr} {s : State} {a : Word} (hbase : errorBase i s = s)
    (he : effect i s = .error (.memx (s.mem.firstAbsent a.toNat))) :
    exec i s = .next (failed s .memx (absentFrom s.mem a)) := by
  rw [exec_of_error he, hbase, absentFrom, ← firstAbsent_ofNat]
  rfl

/-! ### KDF and LDKEY (R121, R122) -/

theorem effectKdf_error {s : State} {err : CmdError} (h : scanZ s.mem s.pwa.toNat = .error err) :
    effectKdf s = .error err :=
  except_bind_eq_error.mpr (.inl h)

theorem effectLdkey_error {s : State} {err : CmdError} (h : checkRange s.mem s.src.toNat 32 = .error err) :
    effectLdkey s = .error err :=
  except_bind_eq_error.mpr (.inl h)

/-! ### The padding of SHA-256 (R112) -/

@[simp] theorem shaLength_length (l : Nat) : (shaLength l).length = 8 := by simp [shaLength]

theorem shaPad_length (msg : List Byte) :
    (shaPad msg).length = msg.length + 1 + shaZeros msg.length + 8 := by
  simp [shaPad]; omega

theorem shaZeros_mod (l : Nat) : (l + 1 + shaZeros l) % 64 = 56 := by
  rw [shaZeros]; omega

/-- Fewer zero bytes do not fill the block. -/
theorem shaZeros_least {l y : Nat} (hy : y < shaZeros l) : (l + 1 + y) % 64 ≠ 56 := by
  rw [shaZeros] at hy; omega

/-- The number a string of bytes writes in base 256, most significant byte first. -/
def bigEndian (bs : List Byte) : Nat := bs.foldl (fun n b => 256 * n + b.toNat) 0

theorem bigEndian_concat (bs : List Byte) (b : Byte) : bigEndian (bs ++ [b]) = 256 * bigEndian bs + b.toNat := by
  simp [bigEndian]

/-- The leading `k` of the `d` base-256 digits of `n` write the quotient of `n` by the weight of the last of them. -/
theorem bigEndian_digits {n d : Nat} (hn : n < 256 ^ d) {k : Nat} (hk : k ≤ d) :
    bigEndian ((List.range k).map fun i => BitVec.ofNat 8 (n / 256 ^ (d - 1 - i))) = n / 256 ^ (d - k) := by
  induction k with
  | zero => exact (Nat.div_eq_of_lt hn).symm
  | succ k ih =>
    have hweight : 256 ^ (d - k) = 256 ^ (d - 1 - k) * 256 := by
      rw [← Nat.pow_succ]; congr 1; omega
    rw [List.range_succ, List.map_append, List.map_singleton, bigEndian_concat, ih (by omega), hweight,
      ← Nat.div_div_eq_div_mul, BitVec.toNat_ofNat, Nat.sub_sub, Nat.add_comm 1 k]
    exact Nat.div_add_mod _ _

theorem bigEndian_shaLength {l : Nat} (hl : l < 2 ^ 61) : bigEndian (shaLength l) = 8 * l := by
  have hdigits := bigEndian_digits (n := 8 * l) (d := 8) (by omega) le_rfl
  rwa [Nat.sub_self, Nat.pow_zero, Nat.div_one] at hdigits

/-! ### The digest and KEY (R110, R117) -/

theorem shaDigest_length (v : ShaState) : (shaDigest v).length = 32 := rfl

theorem sha256_length (msg : List Byte) : (sha256 msg).length = 32 := shaDigest_length _

/-- The object made of a byte string of its length holds that string. -/
theorem toList_ofBytes {n : Nat} {bs : List Byte} (h : bs.length = n) : (ofBytes n bs).toList = bs := by
  apply List.ext_getElem (by simp [h])
  intro i hi hi'
  have hget : (ofBytes n bs)[i]'(h ▸ hi') = bs.getD (0 + i) 0 := bytesAt_getElem n bs 0 i _
  rw [Vector.getElem_toList, hget, Nat.zero_add, List.getD_eq_getElem _ _ hi']

end Sys2Proof.Machine

namespace Sys2Proof.Proofs
open Sys2Proof.Machine Sys2Proof.Claims

/-- Settles O12: by what the scan from PWA answers. -/
theorem kdfHoldsThePasswordDigest : Obligations.KdfHoldsThePasswordDigest := by
  refine ⟨rfl, fun s => ⟨fun pw ⟨hlen, hbytes, hzero⟩ => ?_, fun hno => ?_⟩⟩
  · have he : effect .kdf s = .ok { Effect.none s with key := deriveKey pw, kv := true } :=
      effectKdf_ok.mpr ⟨pw, scanZ_ok hlen hbytes hzero, rfl⟩
    exact exec_eq_completed he
  · exact exec_eq_failed_memx (i := .kdf) rfl (effectKdf_error (scanZ_error hno))

/-- Settles O13: by what the range check at SRC answers. -/
theorem ldkeyLoadsThirtyTwoBytes : Obligations.LdkeyLoadsThirtyTwoBytes := by
  refine ⟨rfl, fun s => ⟨fun key hroom hbytes => ?_, fun hout => ?_⟩⟩
  · have hkey : ofBytes 32 (memRead s.mem s.src.toNat 32) = key :=
      ofBytes_memRead _ _ key fun i hi => hbytes ⟨i, hi⟩
    have he : effect .ldkey s = .ok { Effect.none s with key := key, kv := true } :=
      effectLdkey_ok.mpr ⟨hroom, by rw [hkey]⟩
    exact exec_eq_completed he
  · exact exec_eq_failed_memx (i := .ldkey) rfl (effectLdkey_error (checkRange_error (by omega)))

/-- Settles O47: `z` is `shaZeros` and the last eight bytes are the base-256 digits of the bit length. -/
theorem shaPaddingIsTheLeastOne : Obligations.ShaPaddingIsTheLeastOne := by
  intro msg hmsg
  have hmod := shaZeros_mod msg.length
  refine ⟨shaZeros msg.length, shaLength msg.length, by simp [shaPad], shaLength_length _, hmod,
    fun y => shaZeros_least, ?_, bigEndian_shaLength hmsg⟩
  rw [shaPad_length]; omega

/-- Settles O46: the check values by evaluating the model; the 32 bytes of a digest fill KEY. -/
theorem sha256GivesTheCheckValues : Obligations.Sha256GivesTheCheckValues := by
  refine ⟨?_, ?_, ?_, ?_, ?_, fun pw => toList_ofBytes (sha256_length pw)⟩
  all_goals decide +kernel

end Sys2Proof.Proofs

/-! SUPPORT. Proofs of the statements of spec/41_sbox_generator.md: the base permutation, where the shuffle puts its
entries, and SBGEN, GENSB, LDSB and STSB. The lemmas come first, by the operation they speak of; each settled statement
cites them. -/

namespace Sys2Proof.Machine
open Sys2Proof.Claims

/-! ### The keyed swaps (R141) -/

section SwapStep
variable {key : Key} {p : Table} {i j : Fin 256}

/-- The swap of step `i` with its target index as a variable. -/
theorem swapStep_eq_swap (hj : j.val = (i.val + key[i.val % 32].toNat) % 256) :
    swapStep key p i = p.swap i j := by
  simp only [swapStep, hj]

theorem swapStep_getElem_left (hj : j.val = (i.val + key[i.val % 32].toNat) % 256) :
    (swapStep key p i)[i] = p[j] := by
  rw [swapStep_eq_swap hj]; exact Vector.getElem_swap_left _ _

theorem swapStep_getElem_right (hj : j.val = (i.val + key[i.val % 32].toNat) % 256) :
    (swapStep key p i)[j] = p[i] := by
  rw [swapStep_eq_swap hj]; exact Vector.getElem_swap_right _ _

theorem swapStep_getElem_of_ne (hj : j.val = (i.val + key[i.val % 32].toNat) % 256) {a : Fin 256}
    (hai : a ≠ i) (haj : a ≠ j) : (swapStep key p i)[a] = p[a] := by
  rw [swapStep_eq_swap hj]
  exact Vector.getElem_swap_of_ne (Fin.val_ne_of_ne hai) (Fin.val_ne_of_ne haj)

end SwapStep

theorem identityTable_getElem (a : Fin 256) : identityTable[a] = BitVec.ofNat 8 a.val := by
  simp [identityTable]

/-! ### The base permutation is a bijection (R141) -/

/-- The 256 byte values, in rising order. -/
def byteValues : List Byte := (List.range 256).map (BitVec.ofNat 8)

theorem mem_byteValues (v : Byte) : v ∈ byteValues :=
  List.mem_map.mpr ⟨v.toNat, List.mem_range.mpr v.isLt, by simp⟩

theorem byteValues_nodup : byteValues.Nodup := by
  refine List.nodup_range.map_on fun a ha b hb hab => ?_
  rw [List.mem_range] at ha hb
  have hmod := congrArg BitVec.toNat hab
  simp only [BitVec.toNat_ofNat] at hmod
  omega

/-- Equal entries of an object without repetitions have one index. -/
theorem index_eq_of_nodup {n : Nat} {t : Vector Byte n} (ht : t.toList.Nodup) {i j : Fin n} (h : t[i] = t[j]) :
    i = j :=
  Fin.ext ((ht.getElem_inj_iff (hi := by simp) (hj := by simp)).mp (by simpa using h))

/-- A table that holds one value twice misses another: with all 256 values in 256 entries, none would repeat. -/
theorem exists_not_mem_of_repeat {t : Table} {i j : Fin 256} (hij : i ≠ j) (h : t[i] = t[j]) :
    ∃ v : Byte, v ∉ t := by
  by_contra! hall
  have hsubperm : byteValues.Subperm t.toList :=
    List.subperm_of_subset byteValues_nodup fun v _ => Vector.mem_toList_iff.mpr (hall v)
  have hperm := hsubperm.perm_of_length_le (by simp [byteValues])
  exact hij (index_eq_of_nodup (hperm.nodup_iff.mp byteValues_nodup) h)

theorem mem_basePermutation (key : Key) (v : Byte) : v ∈ (basePermutation key).toList :=
  (basePermutation_perm key).mem_iff.mpr (mem_byteValues v)

theorem basePermutation_nodup (key : Key) : (basePermutation key).toList.Nodup :=
  (basePermutation_perm key).nodup_iff.mpr byteValues_nodup

theorem basePermutation_count (key : Key) (v : Byte) : (basePermutation key).toList.count v = 1 :=
  List.count_eq_one_of_mem (basePermutation_nodup key) (mem_basePermutation key v)

theorem exists_basePermutation_getElem_eq (key : Key) (v : Byte) : ∃ i : Fin 256, (basePermutation key)[i] = v := by
  obtain ⟨i, hi, hv⟩ := Vector.mem_iff_getElem.mp (Vector.mem_toList_iff.mp (mem_basePermutation key v))
  exact ⟨⟨i, hi⟩, hv⟩

/-! ### Splitting a flat string (R148) -/

/-- The table set of a flat string whose byte `256*r + i` is entry `i` of table `r`. -/
theorem tablesOf_eq_of_getD {flat : List Byte} {ss : SBoxSet}
    (h : ∀ r i (hr : r < 16) (hi : i < 256), flat.getD (256 * r + i) 0 = ss[r][i]) : tablesOf flat = ss := by
  refine Vector.ext fun r hr => Vector.ext fun i hi => ?_
  rw [tablesOf_getElem flat r i hr hi, h r i hr hi]

/-- The table set read at an address whose bytes are the tables'. -/
theorem tablesOf_memRead {m : Mem} {a : Nat} {ss : SBoxSet}
    (h : ∀ (r : Fin 16) (i : Fin 256), m.byte (a + 256 * r + i) = ss[r][i]) :
    tablesOf (memRead m a 4096) = ss := by
  refine tablesOf_eq_of_getD fun r i hr hi => ?_
  rw [memRead_getD m a 4096 _ (by omega), ← Nat.add_assoc]
  exact h ⟨r, hr⟩ ⟨i, hi⟩

/-- The replicated buffer is the flat view of sixteen copies of the table (R143). -/
theorem replicateTable_eq_flatOf (p : Table) : replicateTable p = flatOf (Vector.replicate 16 p) := by
  have hsplit : tablesOf (replicateTable p) = Vector.replicate 16 p := by
    refine tablesOf_eq_of_getD fun r i hr hi => ?_
    have hk : 256 * r + i < 4096 := by omega
    have hmod : (256 * r + i) % 256 = i := by omega
    rw [List.getD_eq_getElem _ _ (by rwa [replicateTable_length]), replicateTable_getElem p _ hk]
    simp only [hmod, Vector.getElem_replicate]
  rw [← hsplit, flatOf_tablesOf _ (replicateTable_length p)]

theorem replicateTable_count (p : Table) (v : Byte) : (replicateTable p).count v = 16 * p.toList.count v := by
  rw [replicateTable_eq_flatOf, flatOf, Vector.toList_replicate, List.count_flatMap, List.map_replicate,
    List.sum_replicate, smul_eq_mul, Function.comp_apply]

/-! ### The shuffle (R144, R145) -/

/-- The cursor visits every position of the buffer once. -/
theorem cursors_perm : ((List.range 4096).map fun k => triangular k % 4096).Perm (List.range 4096) := by
  have hnodup : ((List.range 4096).map fun k => triangular k % 4096).Nodup :=
    List.nodup_range.map_on fun a ha b hb hab =>
      triangular_injective (List.mem_range.mp ha) (List.mem_range.mp hb) hab
  have hsubset : ((List.range 4096).map fun k => triangular k % 4096) ⊆ List.range 4096 := by
    intro x hx
    obtain ⟨k, -, rfl⟩ := List.mem_map.mp hx
    exact List.mem_range.mpr (Nat.mod_lt _ (by omega))
  exact (List.subperm_of_subset hnodup hsubset).perm_of_length_le (by simp)

/-- The shuffle only moves the entries: reading its result in the order of the cursors gives the source. -/
theorem roundRobinShuffle_perm {src : List Byte} (h : src.length = 4096) : (roundRobinShuffle src).Perm src := by
  have hlen : (roundRobinShuffle src).length = 4096 := (roundRobinShuffle_length src).trans h
  have hinOrder : (List.range 4096).map ((roundRobinShuffle src).getD · 0) = roundRobinShuffle src := by
    apply List.ext_getElem (by simp [hlen])
    intro x _ hx
    simp [hx]
  have hatCursors : (List.range 4096).map (fun k => (roundRobinShuffle src).getD (triangular k % 4096) 0) = src := by
    apply List.ext_getElem (by simp [h])
    intro k _ hk
    rw [List.getElem_map, List.getElem_range, roundRobinShuffle_getD src h k (h ▸ hk)]
  have hperm := cursors_perm.symm.map ((roundRobinShuffle src).getD · 0)
  rwa [hinOrder, List.map_map, Function.comp_def, hatCursors] at hperm

/-! ### The generated table set (R146, R147) -/

/-- `SB[T(k)] = P[k mod 256]` (R146). -/
theorem flatOf_generateSBoxSet_getD (key : Key) {k : Nat} (hk : k < 4096) :
    (flatOf (generateSBoxSet key)).getD (triangular k % 4096) 0 = (basePermutation key)[k % 256]'(by omega) := by
  rw [flatOf_generateSBoxSet, roundRobinShuffle_getD _ (replicateTable_length _) k hk,
    replicateTable_getElem _ k hk]

/-- The entry of the table the k-th cursor position lies in. -/
theorem generateSBoxSet_getElem (key : Key) {k r i : Nat} (hk : k < 4096) (hr : r < 16) (hi : i < 256)
    (hcursor : triangular k % 4096 = 256 * r + i) :
    (generateSBoxSet key)[r][i] = (basePermutation key)[k % 256]'(by omega) := by
  rw [← flatOf_generateSBoxSet_getD key hk, hcursor, List.getD, flatOf_getElem _ r i hr hi, Option.getD_some]

theorem generateSBoxSet_zero_zero (key : Key) : (generateSBoxSet key)[0][0] = (basePermutation key)[0] :=
  generateSBoxSet_getElem key (k := 0) (by omega) (by omega) (by omega) rfl

theorem generateSBoxSet_zero_128 (key : Key) : (generateSBoxSet key)[0][128] = (basePermutation key)[0] :=
  generateSBoxSet_getElem key (k := 256) (by omega) (by omega) (by omega) rfl

theorem flatOf_generateSBoxSet_count (key : Key) (v : Byte) : (flatOf (generateSBoxSet key)).count v = 16 := by
  rw [flatOf_generateSBoxSet, (roundRobinShuffle_perm (replicateTable_length _)).count_eq, replicateTable_count,
    basePermutation_count]

/-! ### SBGEN, GENSB, LDSB and STSB (R150 to R153) -/

section Errors
variable {s : State} {err : CmdError}

theorem effectSbgen_error (h : needKey s = .error err) : effectSbgen s = .error err :=
  except_bind_eq_error.mpr (.inl h)

theorem effectGensb_error (h : scanZ s.mem s.pwa.toNat = .error err) : effectGensb s = .error err :=
  except_bind_eq_error.mpr (.inl h)

theorem effectLdsb_error (h : checkRange s.mem s.src.toNat 4096 = .error err) : effectLdsb s = .error err :=
  except_bind_eq_error.mpr (.inl h)

theorem effectStsb_error_tables (h : needTables s = .error err) : effectStsb s = .error err :=
  except_bind_eq_error.mpr (.inl h)

theorem effectStsb_error_range (hsbv : s.sbv = true) (h : checkRange s.mem s.dst.toNat 4096 = .error err) :
    effectStsb s = .error err :=
  except_bind_eq_error.mpr (.inr ⟨(), needTables_ok.mpr hsbv, except_bind_eq_error.mpr (.inl h)⟩)

end Errors

/-- A command that only stores completes with its bytes in MEM and its results. -/
theorem exec_eq_completed_store {i : Instr} {s : State} {a outlen : Nat} {bs : List Byte} {padw : Bool}
    (he : effect i s =
      .ok { Effect.none s with storeAddr := a, storeBytes := bs, outlen := outlen, padw := padw }) :
    exec i s = .next (completed { s with mem := memWrite s.mem a bs } outlen padw) :=
  exec_of_ok he

/-- A table set stored in MEM reads back entry by entry. -/
theorem memWrite_flatOf_byte {m : Mem} {a : Nat} (ss : SBoxSet) (hroom : a + 4096 ≤ m.size)
    (r : Fin 16) (i : Fin 256) : (memWrite m a (flatOf ss)).byte (a + 256 * r + i) = ss[r][i] := by
  have hlen := flatOf_length ss
  rw [Nat.add_assoc, memWrite_byte_inside m a _ _ (by omega) (by omega)]
  exact (List.getElem_eq_iff _).mpr (flatOf_getElem ss r i r.isLt i.isLt)

end Sys2Proof.Machine

namespace Sys2Proof.Proofs
open Sys2Proof.Machine Sys2Proof.Claims

/-- Settles O48: the tables are the states of the loop over the swaps, and the swaps permute the 256 byte values. -/
theorem basePermutationIsABijection : Obligations.BasePermutationIsABijection := by
  intro key
  refine ⟨?_, fun v => ?_⟩
  · obtain ⟨p, hfirst, hstep, hlast⟩ := foldl_finRange_steps (swapStep key) identityTable
    refine ⟨p, fun a => by rw [hfirst, identityTable_getElem], hlast.symm, fun i j hj => ?_⟩
    rw [hstep i]
    exact ⟨swapStep_getElem_left hj, swapStep_getElem_right hj, fun _ => swapStep_getElem_of_ne hj⟩
  · obtain ⟨i, hi⟩ := exists_basePermutation_getElem_eq key v
    exact ⟨i, hi, fun j hj => index_eq_of_nodup (basePermutation_nodup key) (hj.trans hi.symm)⟩

/-- Settles O49: the cursor of the k-th placement is the k-th triangular number. -/
theorem shuffleScattersByTriangularNumbers : Obligations.ShuffleScattersByTriangularNumbers :=
  fun key _ => flatOf_generateSBoxSet_getD key

/-- Settles O50: source elements 0 and 256 both hold P[0] and land in table 0; the shuffle permutes sixteen copies of
the base permutation. -/
theorem generatedTablesRepeatValues : Obligations.GeneratedTablesRepeatValues := by
  intro key
  have hrepeat : (generateSBoxSet key)[0][0] = (generateSBoxSet key)[0][128] :=
    (generateSBoxSet_zero_zero key).trans (generateSBoxSet_zero_128 key).symm
  exact ⟨generateSBoxSet_zero_zero key, generateSBoxSet_zero_128 key,
    exists_not_mem_of_repeat (i := 0) (j := 128) (by decide) hrepeat, flatOf_generateSBoxSet_count key⟩

/-- Settles O14: by KV. -/
theorem sbgenGeneratesTablesAndZeroisesKey : Obligations.SbgenGeneratesTablesAndZeroisesKey := by
  refine ⟨rfl, fun s => ⟨fun hkv => ?_, fun hkv => ?_⟩⟩
  · have he : effect .sbgen s = .ok
        { Effect.none s with key := Key.zero, kv := false, sbox := generateSBoxSet s.key, sbv := true } :=
      effectSbgen_ok.mpr ⟨hkv, rfl⟩
    exact exec_eq_completed he
  · exact exec_of_error (i := .sbgen) (effectSbgen_error (needKey_error.mpr ⟨hkv, rfl⟩))

/-- Settles O15: by what the scan from PWA answers. -/
theorem gensbGeneratesTablesFromThePassword : Obligations.GensbGeneratesTablesFromThePassword := by
  refine ⟨rfl, fun s => ⟨fun pw ⟨hlen, hbytes, hzero⟩ => ?_, fun hno => ?_⟩⟩
  · have he : effect .gensb s = .ok
        { Effect.none s with
          key := Key.zero, kv := false, sbox := generateSBoxSet (deriveKey pw), sbv := true } :=
      effectGensb_ok.mpr ⟨pw, scanZ_ok hlen hbytes hzero, rfl⟩
    exact exec_eq_completed he
  · exact exec_eq_failed_memx (i := .gensb) rfl (effectGensb_error (scanZ_error hno))

/-- Settles O16: by what the range check at SRC answers. -/
theorem ldsbLoadsAnyTableSet : Obligations.LdsbLoadsAnyTableSet := by
  refine ⟨rfl, fun s => ⟨fun ss hroom hbytes => ?_, fun hout => ?_⟩⟩
  · have he : effect .ldsb s = .ok { Effect.none s with sbox := ss, sbv := true } :=
      effectLdsb_ok.mpr ⟨hroom, by rw [tablesOf_memRead hbytes]⟩
    exact exec_eq_completed he
  · exact exec_eq_failed_memx (i := .ldsb) rfl (effectLdsb_error (checkRange_error (by omega)))

/-- Settles O17: by SBV, then by what the range check at DST answers. -/
theorem stsbStoresTheTableSet : Obligations.StsbStoresTheTableSet := by
  refine ⟨rfl, fun s => ⟨fun hsbv => ?_, fun hsbv hout => ?_, fun hsbv hroom => ?_⟩⟩
  · exact exec_of_error (i := .stsb) (effectStsb_error_tables (needTables_error.mpr ⟨hsbv, rfl⟩))
  · exact exec_eq_failed_memx (i := .stsb) rfl (effectStsb_error_range hsbv (checkRange_error (by omega)))
  · have he : effect .stsb s = .ok { Effect.none s with storeAddr := s.dst.toNat, storeBytes := flatOf s.sbox } :=
      effectStsb_ok.mpr ⟨hsbv, hroom, rfl⟩
    refine ⟨_, exec_eq_completed_store he, memWrite_size _ _ _, memWrite_flatOf_byte s.sbox hroom, fun x hx => ?_⟩
    exact memWrite_byte_outside _ _ x _ (by rwa [flatOf_length])

end Sys2Proof.Proofs

/-! SUPPORT. Proofs of the statements of spec/42_round_function.md: the round function and RNDF. The lemmas come first,
by the operation they speak of; each settled statement cites them. -/

namespace Sys2Proof.Machine
open Sys2Proof.Claims

/-! ### The checks a transform begins with (R171, R183, R184) -/

/-- The checks of RNDF, FWD and INV, in their order: the tables, then `n` bytes at SRC, then `n` bytes at DST. -/
def transformChecks (s : State) (n : Nat) : Except CmdError Unit := do
  needTables s
  checkRange s.mem (operand s.src) n
  checkRange s.mem (operand s.dst) n

section Checks
variable {s : State} {n : Nat}

theorem transformChecks_error_tables (hsbv : s.sbv = false) : transformChecks s n = .error .nosbox :=
  except_bind_eq_error.mpr (.inl (needTables_error.mpr ⟨hsbv, rfl⟩))

theorem transformChecks_error_src (hsbv : s.sbv = true) (hsrc : ¬ inside s.mem s.src n) :
    transformChecks s n = .error (.memx (s.mem.firstAbsent s.src.toNat)) :=
  except_bind_eq_error.mpr <| .inr ⟨(), needTables_ok.mpr hsbv,
    except_bind_eq_error.mpr (.inl (checkRange_error hsrc))⟩

theorem transformChecks_error_dst (hsbv : s.sbv = true) (hsrc : inside s.mem s.src n)
    (hdst : ¬ inside s.mem s.dst n) :
    transformChecks s n = .error (.memx (s.mem.firstAbsent s.dst.toNat)) :=
  except_bind_eq_error.mpr <| .inr ⟨(), needTables_ok.mpr hsbv,
    except_bind_eq_error.mpr (.inr ⟨(), checkRange_ok hsrc, checkRange_error hdst⟩)⟩

/-- A command that begins with these checks raises the error they raise. -/
theorem error_of_transformChecks {α : Type} {err : CmdError} (h : transformChecks s n = .error err)
    (x : Except CmdError α) :
    (do needTables s; checkRange s.mem (operand s.src) n; checkRange s.mem (operand s.dst) n; x) =
      .error err :=
  calc
    _ = transformChecks s n >>= fun _ => x := by simp only [transformChecks, bind_assoc]
    _ = .error err := by rw [h, except_bind_error]

end Checks

/-! ### What a store leaves in MEM (R65) -/

/-- A store whose range lies in MEM puts its bytes there and changes no other byte. -/
theorem storedAt_memWrite {m : Mem} {a : Word} {bs : List Byte} (hroom : a.toNat + bs.length ≤ m.size) :
    storedAt m (memWrite m a.toNat bs) a bs :=
  ⟨memWrite_size m _ bs, fun i hi => memWrite_byte_inside m _ i bs hi hroom,
    fun x => memWrite_byte_outside m _ x bs⟩

/-! ### The round function and RNDF (R170, R171) -/

/-- The number of a byte sum, from the number of its first summand modulo 256. -/
theorem byte_toNat_add {x : Byte} {n : Nat} (hx : x.toNat = n % 256) (y : Byte) :
    (x + y).toNat = (n + y.toNat) % 256 := by
  rw [BitVec.toNat_add, hx, Nat.mod_add_mod]

/-- The word of RNDF `rnd` (R92). -/
theorem ofNat_eq_encode_rndf (rnd : BitVec 4) : BitVec.ofNat 32 (256 * rnd.toNat + 7) = encode (.rndf rnd) := by
  have hrnd := rnd.isLt
  apply BitVec.eq_of_toNat_eq
  rw [encode, Fields.word_toNat, BitVec.toNat_ofNat]
  show (256 * rnd.toNat + 7) % 2 ^ 32 = 4096 * 0 + 256 * rnd.toNat + 7
  omega

theorem effectRndf_error {rnd : BitVec 4} {s : State} {err : CmdError} (h : transformChecks s 4 = .error err) :
    effectRndf rnd s = .error err :=
  error_of_transformChecks h _

end Sys2Proof.Machine

namespace Sys2Proof.Proofs
open Sys2Proof.Machine Sys2Proof.Claims

/-- Settles O51: the index of each lookup is a sum of bytes, whose number is the sum of their numbers modulo 256. -/
theorem roundFunctionChainsTheIndex : Obligations.RoundFunctionChainsTheIndex := by
  intro inp t
  have h0 : inp[3].toNat = inp[3].toNat % 256 := (Nat.mod_eq_of_lt inp[3].toNat_lt_256).symm
  have h1 := byte_toNat_add h0 inp[2]
  have h2 := byte_toNat_add h1 inp[1]
  have h3 := byte_toNat_add h2 inp[0]
  exact ⟨getElem_congr_idx (c := t) h0, getElem_congr_idx (c := t) h1, getElem_congr_idx (c := t) h2,
    getElem_congr_idx (c := t) h3⟩

/-- Settles O18: by the checks in their order; when all pass, the four bytes at SRC are the input. -/
theorem rndfAppliesTheRoundFunctionOnce : Obligations.RndfAppliesTheRoundFunctionOnce := by
  intro rnd
  refine ⟨?_, fun s => ⟨fun hsbv => ?_, fun hsbv hsrc => ?_, fun hsbv hsrc hdst => ?_,
    fun inp hsbv hsrc hdst hbytes => ?_⟩⟩
  · exact (decodeExactlyInvertsEncode _ _).mpr (ofNat_eq_encode_rndf rnd)
  · exact exec_of_error (i := .rndf rnd) (effectRndf_error (transformChecks_error_tables hsbv))
  · exact exec_eq_failed_memx (i := .rndf rnd) rfl (effectRndf_error (transformChecks_error_src hsbv hsrc))
  · exact exec_eq_failed_memx (i := .rndf rnd) rfl (effectRndf_error (transformChecks_error_dst hsbv hsrc hdst))
  · have hin : ofBytes 4 (memRead s.mem s.src.toNat 4) = inp :=
      ofBytes_memRead _ _ inp fun i hi => hbytes i (by simpa using hi)
    have hroom : s.dst.toNat + 4 ≤ s.mem.size := hdst.resolve_left (by decide)
    have he : effect (.rndf rnd) s = .ok
        { Effect.none s with
          storeAddr := s.dst.toNat
          storeBytes := (roundFunction inp (s.sbox[rnd.toNat]'rnd.isLt)).toList } :=
      effectRndf_ok.mpr ⟨hsbv, hsrc.resolve_left (by decide), hroom, by rw [hin]⟩
    exact ⟨_, exec_eq_completed_store he, storedAt_memWrite (by simpa using hroom)⟩

end Sys2Proof.Proofs

/-! SUPPORT. Proofs of the statements of spec/43_feistel_network.md: the sixteen rounds forward and inverse, and FWD and
INV. The lemmas come first, by the operation they speak of; each settled statement cites them. -/

namespace Sys2Proof.Machine
open Sys2Proof.Claims

/-! ### The halves of a block (R180) -/

theorem halvesAre_splitBlock (b : Block) : halvesAre b (splitBlock b).1 (splitBlock b).2 := by
  simp [halvesAre, splitBlock, leftHalf, rightHalf]

theorem halvesAre_joinBlock (lr : Half × Half) : halvesAre (joinBlock lr) lr.1 lr.2 := fun i =>
  ⟨joinHalves_getElem_left lr.1 lr.2 i i.isLt, joinHalves_getElem_right lr.1 lr.2 i i.isLt⟩

theorem isXor_xorHalf (x y : Half) : isXor (xorHalf x y) x y := by
  simp [isXor, xorHalf]

/-! ### The rounds (R181, R182, R185) -/

/-- The halves between the rounds of `forward` (R181). -/
theorem forward_rounds (b : Block) (ss : SBoxSet) :
    ∃ l r : Nat → Half, halvesAre b (l 0) (r 0) ∧
      (∀ n : Fin 16, l (n.val + 1) = r n.val ∧
        isXor (r (n.val + 1)) (l n.val) (roundFunction (r n.val) ss[n])) ∧
      halvesAre (forward b ss) (l 16) (r 16) := by
  obtain ⟨p, hfirst, hstep, hlast⟩ := foldl_finRange_steps (forwardRound ss) (splitBlock b)
  refine ⟨fun k => (p k).1, fun k => (p k).2, ?_, fun n => ?_, ?_⟩
  · simpa only [hfirst] using halvesAre_splitBlock b
  · simpa only [hstep n, forwardRound, true_and] using isXor_xorHalf _ _
  · simpa only [forward, ← hlast] using halvesAre_joinBlock (p 16)

/-- The halves between the rounds of `inverse`, numbered as those of `forward` (R182). -/
theorem inverse_rounds (b : Block) (ss : SBoxSet) :
    ∃ l r : Nat → Half, halvesAre b (l 16) (r 16) ∧
      (∀ n : Fin 16, r n.val = l (n.val + 1) ∧
        isXor (l n.val) (r (n.val + 1)) (roundFunction (l (n.val + 1)) ss[n])) ∧
      halvesAre (inverse b ss) (l 0) (r 0) := by
  obtain ⟨p, hfirst, hstep, hlast⟩ := foldl_reverse_finRange_steps (inverseRound ss) (splitBlock b)
  refine ⟨fun k => (p k).1, fun k => (p k).2, ?_, fun n => ?_, ?_⟩
  · simpa only [hfirst] using halvesAre_splitBlock b
  · simpa only [hstep n, inverseRound, true_and] using isXor_xorHalf _ _
  · simpa only [inverse, ← hlast] using halvesAre_joinBlock (p 0)

/-- `Inverse(Forward(B, SS), SS) = B` (R185). -/
theorem inverse_forward (b : Block) (ss : SBoxSet) : inverse (forward b ss) ss = b := by
  rw [inverse, forward, splitBlock_joinBlock,
    foldl_reverse_cancel _ _ fun lr r => inverseRound_forwardRound ss r lr, joinBlock_splitBlock]

/-- `Forward(Inverse(B, SS), SS) = B` (R185). -/
theorem forward_inverse (b : Block) (ss : SBoxSet) : forward (inverse b ss) ss = b := by
  have hcancel := foldl_reverse_cancel _ _ (fun lr r => forwardRound_inverseRound ss r lr)
    (List.finRange 16).reverse (splitBlock b)
  rw [List.reverse_reverse] at hcancel
  rw [forward, inverse, splitBlock_joinBlock, hcancel, joinBlock_splitBlock]

/-! ### Constant tables (R183) -/

/-- A forward round whose round function gives `x` for every input. -/
def constantRound (x : Half) (lr : Half × Half) : Half × Half := (lr.2, xorHalf lr.1 x)

/-- Four such rounds xor `x` into each half twice and leave the halves in their places. -/
theorem constantRound_isPeriodicPt (x : Half) (lr : Half × Half) :
    Function.IsPeriodicPt (constantRound x) 4 lr := by
  show (xorHalf (xorHalf lr.1 x) x, xorHalf (xorHalf lr.2 x) x) = lr
  simp only [xorHalf_self]

/-- Every lookup in a constant table gives its one entry (R170). -/
theorem roundFunction_constant (inp : Half) (c : Byte) :
    roundFunction inp (Vector.replicate 256 c) = Vector.replicate 4 c := by
  simp only [roundFunction, Vector.getElem_replicate]
  rfl

theorem forwardRound_constant (c : Byte) :
    forwardRound (Vector.replicate 16 (Vector.replicate 256 c)) =
      fun lr _ => constantRound (Vector.replicate 4 c) lr := by
  funext lr r
  simp only [forwardRound, constantRound, Fin.getElem_fin, Vector.getElem_replicate, roundFunction_constant]

/-- R183's corner case: the sixteen rounds are four times the four that give the halves back. -/
theorem forward_constant (c : Byte) (b : Block) :
    forward b (Vector.replicate 16 (Vector.replicate 256 c)) = b := by
  have hperiod : (constantRound (Vector.replicate 4 c))^[16] (splitBlock b) = splitBlock b :=
    (constantRound_isPeriodicPt _ _).trans_dvd (by decide)
  rw [forward, forwardRound_constant, List.foldl_const, List.length_finRange, hperiod, joinBlock_splitBlock]

/-! ### FWD and INV (R183, R184) -/

section BlockCommands
variable {i : Instr} {f : Block → SBoxSet → Block} {s : State}

theorem effectBlock_error {err : CmdError} (h : transformChecks s 8 = .error err) :
    effectBlock f s = .error err :=
  error_of_transformChecks h _

variable (heff : effect i s = effectBlock f s) (hbase : errorBase i s = s)
include heff hbase

theorem exec_block_no_tables (hsbv : s.sbv = false) : exec i s = .next (failed s .nosbox 0) := by
  rw [exec_of_error (heff.trans (effectBlock_error (transformChecks_error_tables hsbv))), hbase]
  rfl

theorem exec_block_src_outside (hsbv : s.sbv = true) (hsrc : ¬ inside s.mem s.src 8) :
    exec i s = .next (failed s .memx (absentFrom s.mem s.src)) :=
  exec_eq_failed_memx hbase (heff.trans (effectBlock_error (transformChecks_error_src hsbv hsrc)))

theorem exec_block_dst_outside (hsbv : s.sbv = true) (hsrc : inside s.mem s.src 8)
    (hdst : ¬ inside s.mem s.dst 8) : exec i s = .next (failed s .memx (absentFrom s.mem s.dst)) :=
  exec_eq_failed_memx hbase (heff.trans (effectBlock_error (transformChecks_error_dst hsbv hsrc hdst)))

omit hbase in
theorem exec_block_stores (b : Block) (hsbv : s.sbv = true) (hsrc : inside s.mem s.src 8)
    (hdst : inside s.mem s.dst 8) (hbytes : bytesLieAt s.mem s.src b.toList) :
    ∃ m', exec i s = .next (completed { s with mem := m' } 0 false) ∧
      storedAt s.mem m' s.dst (f b s.sbox).toList := by
  have hin : ofBytes 8 (memRead s.mem s.src.toNat 8) = b :=
    ofBytes_memRead _ _ b fun k hk => hbytes k (by simpa using hk)
  have hroom : s.dst.toNat + 8 ≤ s.mem.size := hdst.resolve_left (by decide)
  have he : effect i s =
      .ok { Effect.none s with storeAddr := s.dst.toNat, storeBytes := (f b s.sbox).toList } :=
    heff.trans (effectBlock_ok.mpr ⟨hsbv, hsrc.resolve_left (by decide), hroom, by rw [hin]⟩)
  exact ⟨_, exec_eq_completed_store he, storedAt_memWrite (by simpa using hroom)⟩

end BlockCommands

end Sys2Proof.Machine

namespace Sys2Proof.Proofs
open Sys2Proof.Machine Sys2Proof.Claims

/-- Settles O52: the halves are the states of the loops over the rounds, and each round undoes its counterpart. -/
theorem feistelNetworkInvertsForAnyTables : Obligations.FeistelNetworkInvertsForAnyTables := fun b ss =>
  ⟨forward_rounds b ss, inverse_rounds b ss, inverse_forward b ss, forward_inverse b ss⟩

/-- Settles O53: four rounds with one constant table give the halves back; `inverse` undoes `forward`. -/
theorem constantTablesMakeForwardTheIdentity : Obligations.ConstantTablesMakeForwardTheIdentity := by
  intro c b
  have hforward := forward_constant c b
  refine ⟨hforward, ?_⟩
  calc inverse b (Vector.replicate 16 (Vector.replicate 256 c))
    _ = inverse (forward b (Vector.replicate 16 (Vector.replicate 256 c)))
          (Vector.replicate 16 (Vector.replicate 256 c)) := by rw [hforward]
    _ = b := inverse_forward b _

/-- Settles O19: by the checks in their order; when all pass, `forward` of the block at SRC is stored. -/
theorem fwdTransformsTheBlock : Obligations.FwdTransformsTheBlock :=
  ⟨rfl, fun s => ⟨exec_block_no_tables (effect_fwd s) rfl, exec_block_src_outside (effect_fwd s) rfl,
    exec_block_dst_outside (effect_fwd s) rfl, exec_block_stores (effect_fwd s)⟩⟩

/-- Settles O20: by the checks in their order; when all pass, `inverse` of the block at SRC is stored. -/
theorem invTransformsTheBlockBack : Obligations.InvTransformsTheBlockBack :=
  ⟨rfl, fun s => ⟨exec_block_no_tables (effect_inv s) rfl, exec_block_src_outside (effect_inv s) rfl,
    exec_block_dst_outside (effect_inv s) rfl, exec_block_stores (effect_inv s)⟩⟩

end Sys2Proof.Proofs

/-! SUPPORT. Proofs of the statements of spec/44_padding_codec.md: the padding and its removal, PAD and UNPAD. The
lemmas come first, by the operation they speak of; each settled statement cites them. -/

namespace Sys2Proof.Machine
open Sys2Proof.Claims

/-! ### The padding (R200, R201) -/

theorem padLen_bounds (n : Nat) : 1 ≤ padLen n ∧ padLen n ≤ 8 := by
  simp only [padLen]; omega

/-- The pad byte is the ASCII digit of the pad count (R200, R5). -/
theorem padByte_eq (p : Nat) : Config.padBase + BitVec.ofNat 8 p = BitVec.ofNat 8 (0x30 + p) :=
  (BitVec.ofNat_add 0x30 p).symm

/-- The number of bytes PAD stores and reports (R202). -/
theorem addPadding_length_eq_add (x : List Byte) : (addPadding x).length = x.length + padLen x.length := by
  simp [addPadding]

/-- The candidate of a padded string is its pad count (R201). -/
theorem candidate_addPadding (x : List Byte) : ((addPadding x).getLastD 0 - 0x30).toNat = padLen x.length := by
  obtain ⟨hpos, hle⟩ := padLen_bounds x.length
  have hlast : (addPadding x).getLastD 0 = Config.padBase + BitVec.ofNat 8 (padLen x.length) := by
    rw [addPadding, List.getLastD_eq_getLast?, List.getLast?_append, List.getLast?_replicate, if_neg (by omega)]
    rfl
  calc ((addPadding x).getLastD 0 - 0x30).toNat
    _ = (Config.padBase + BitVec.ofNat 8 (padLen x.length) - Config.padBase).toNat := by rw [hlast]; rfl
    _ = padLen x.length := by
      rw [add_sub_cancel_left, BitVec.toNat_ofNat, Nat.mod_eq_of_lt (by omega)]

/-- `RemovePaddingLen(AddPadding(x))` is the length of `x`, without a warning (R204). -/
theorem removePaddingLen_addPadding (x : List Byte) : removePaddingLen (addPadding x) = (x.length, false) := by
  have hle := (padLen_bounds x.length).2
  rw [removePaddingLen_of_le (by rwa [candidate_addPadding]), candidate_addPadding, addPadding_length_eq_add,
    Nat.add_sub_cancel]

theorem take_addPadding (x : List Byte) : (addPadding x).take x.length = x := List.take_left

/-! ### PAD (R202) -/

section Pad
variable {s : State}

theorem effectPad_error_src (h : ¬ inside s.mem s.src s.len.toNat) :
    effectPad s = .error (.memx (s.mem.firstAbsent s.src.toNat)) :=
  except_bind_eq_error.mpr (.inl (checkRange_error h))

theorem effectPad_error_dst (hsrc : inside s.mem s.src s.len.toNat)
    (hdst : ¬ inside s.mem s.dst (s.len.toNat + padLen s.len.toNat)) :
    effectPad s = .error (.memx (s.mem.firstAbsent s.dst.toNat)) :=
  except_bind_eq_error.mpr <| .inr ⟨(), checkRange_ok hsrc, except_bind_eq_error.mpr (.inl (checkRange_error hdst))⟩

/-- With both ranges in MEM, PAD stores the padded string of the bytes at SRC and reports its length. -/
theorem exec_pad_stores {x : List Byte} (hx : x.length = s.len.toNat) (hsrc : inside s.mem s.src x.length)
    (hdst : inside s.mem s.dst (x.length + padLen x.length)) (hbytes : bytesLieAt s.mem s.src x) :
    ∃ m', exec .pad s = .next (completed { s with mem := m' } (x.length + padLen x.length) false) ∧
      storedAt s.mem m' s.dst (addPadding x) := by
  have hpos := (padLen_bounds x.length).1
  have hroom : s.dst.toNat + (x.length + padLen x.length) ≤ s.mem.size := hdst.resolve_left (by omega)
  have hread : memRead s.mem s.src.toNat x.length = x := memRead_eq_of_bytes hbytes
  have he : effect .pad s = .ok
      { Effect.none s with
        storeAddr := s.dst.toNat
        storeBytes := addPadding x
        outlen := x.length + padLen x.length } :=
    effectPad_ok.mpr (by rw [← hx, hread]; exact ⟨hsrc, hroom, rfl⟩)
  exact ⟨_, exec_eq_completed_store he, storedAt_memWrite (by rwa [addPadding_length_eq_add])⟩

end Pad

/-! ### UNPAD (R203) -/

/-- The last byte MemRead returns. -/
theorem memRead_getLastD (m : Mem) (a : Nat) {n : Nat} (h : n ≠ 0) :
    (memRead m a n).getLastD 0 = m.byte (a + n - 1) := by
  have hlast : n - 1 < n := by omega
  rw [List.getLastD_eq_getLast?, List.getLast?_eq_getElem?, ← List.getD_eq_getElem?_getD, memRead_length,
    memRead_getD m a n _ hlast, Nat.add_sub_assoc (by omega)]

section Unpad
variable {s : State}

theorem effectUnpad_error_length (h : s.len.toNat = 0 ∨ s.len.toNat % 8 ≠ 0) : effectUnpad s = .error .badlen :=
  except_bind_eq_error.mpr (.inl (needBlocks_error.mpr ⟨h, rfl⟩))

theorem effectUnpad_error_src (hne : s.len.toNat ≠ 0) (hmod : s.len.toNat % 8 = 0)
    (hsrc : ¬ inside s.mem s.src s.len.toNat) :
    effectUnpad s = .error (.memx (s.mem.firstAbsent s.src.toNat)) :=
  except_bind_eq_error.mpr <| .inr
    ⟨(), needBlocks_ok.mpr ⟨hne, hmod⟩, except_bind_eq_error.mpr (.inl (checkRange_error hsrc))⟩

/-- With a positive number of whole blocks in MEM, UNPAD reports the unpadded length and the warning. -/
theorem exec_unpad_reports {newlen : Nat} {warn : Bool} (hne : s.len.toNat ≠ 0) (hmod : s.len.toNat % 8 = 0)
    (hsrc : inside s.mem s.src s.len.toNat)
    (h : removePaddingLen (memRead s.mem s.src.toNat s.len.toNat) = (newlen, warn)) :
    exec .unpad s = .next (completed s newlen warn) := by
  have he : effect .unpad s = .ok { Effect.none s with outlen := newlen, padw := warn } :=
    effectUnpad_ok.mpr ⟨hne, hmod, hsrc.resolve_left hne, by rw [h]⟩
  exact exec_eq_completed he

end Unpad

end Sys2Proof.Machine

namespace Sys2Proof.Proofs
open Sys2Proof.Machine Sys2Proof.Claims

/-- Settles O54: the candidate of a padded string is its pad count, which is at most 8. -/
theorem unpaddingUndoesPadding : Obligations.UnpaddingUndoesPadding := by
  intro x
  rw [removePaddingLen_addPadding]
  exact ⟨addPadding_length x, rfl, take_addPadding x⟩

/-- Settles O21: by what the range checks at SRC and at DST answer; when both pass, the padded string is stored. -/
theorem padCopiesAndAppendsThePadding : Obligations.PadCopiesAndAppendsThePadding := by
  refine ⟨rfl, ?_⟩
  rintro s _ _ rfl rfl
  refine ⟨fun hsrc => ?_, fun hsrc hdst => ?_, fun x hx hsrc hdst hbytes => ?_⟩
  · exact exec_eq_failed_memx (i := .pad) rfl (effectPad_error_src hsrc)
  · exact exec_eq_failed_memx (i := .pad) rfl (effectPad_error_dst hsrc hdst)
  · rw [← hx] at hsrc hdst ⊢
    rw [← padByte_eq]
    exact exec_pad_stores hx hsrc hdst hbytes

/-- Settles O22: by the checks in their order; when they pass, the last byte read gives the candidate. -/
theorem unpadReportsTheUnpaddedLength : Obligations.UnpadReportsTheUnpaddedLength := by
  refine ⟨rfl, ?_⟩
  rintro s _ _ rfl rfl
  refine ⟨fun hbad => ?_, fun hne hmod hsrc => ?_, fun hne hmod hsrc hc => ?_, fun hne hmod hsrc hc => ?_⟩
  · exact exec_of_error (i := .unpad) (effectUnpad_error_length hbad)
  · exact exec_eq_failed_memx (i := .unpad) rfl (effectUnpad_error_src hne hmod hsrc)
  · rw [← memRead_getLastD _ _ hne] at hc
    exact exec_unpad_reports hne hmod hsrc (by rw [removePaddingLen_of_gt hc, memRead_length])
  · rw [← memRead_getLastD _ _ hne] at hc ⊢
    exact exec_unpad_reports hne hmod hsrc (by rw [removePaddingLen_of_le hc, memRead_length])

end Sys2Proof.Proofs

/-! SUPPORT. Proofs of the statements of spec/45_cipher_engine.md: `Encrypt` and `Decrypt` block by block, ENC, DEC, ZERO
and NOP. The lemmas come first, by the operation they speak of; each settled statement cites them. -/

namespace Sys2Proof.Machine
open Sys2Proof.Claims

/-! ### Byte strings block by block (R62, R220, R224) -/

/-- A byte of a whole block, read through the block. -/
theorem blockAt_getElem_mod {bs : List Byte} {i : Nat} (hi : i < bs.length) :
    (blockAt bs (i / 8))[i % 8] = bs[i] := by
  rw [blockAt, bytesAt_getElem _ _ _ _ (Nat.mod_lt i (by decide)), Nat.div_add_mod, List.getD_eq_getElem _ _ hi]

/-- Two strings of the same number of whole blocks are equal when their blocks are. -/
theorem eq_of_blockAt_eq {bs cs : List Byte} (hlen : bs.length = cs.length) (hmod : cs.length % 8 = 0)
    (h : ∀ k, 8 * k + 8 ≤ cs.length → blockAt bs k = blockAt cs k) : bs = cs := by
  refine List.ext_getElem hlen fun i hi hi' => ?_
  have hk := h (i / 8) (by omega)
  rw [← blockAt_getElem_mod hi, ← blockAt_getElem_mod hi', hk]

/-- Mapping the blocks back through a left inverse gives the string. -/
theorem mapBlocks_mapBlocks_cancel {f g : Block → Block} (h : ∀ b, g (f b) = b) {bs : List Byte}
    (hmod : bs.length % 8 = 0) : mapBlocks g (mapBlocks f bs) = bs := by
  have hf : (mapBlocks f bs).length = bs.length := by rw [mapBlocks_length]; omega
  have hg : (mapBlocks g (mapBlocks f bs)).length = bs.length := by rw [mapBlocks_length]; omega
  refine eq_of_blockAt_eq hg hmod fun k hk => ?_
  rw [blockAt_mapBlocks _ _ _ (by omega), blockAt_mapBlocks _ _ _ hk, h]

/-! ### Encrypt and Decrypt (R220, R224, R225) -/

/-- `Encrypt` maps the blocks of the padded plaintext (R220). -/
theorem encrypt_eq (pt pw : List Byte) : encrypt pt pw =
    mapBlocks (fun b => forward b (generateSBoxSet (deriveKey pw))) (addPadding pt) := rfl

/-- The number of bytes ENC stores and reports (R221). -/
theorem encrypt_length_eq_add (pt pw : List Byte) : (encrypt pt pw).length = pt.length + padLen pt.length := by
  rw [encrypt_length, addPadding_length_eq_add]

theorem blockAt_encrypt {pt pw : List Byte} {k : Nat} (hk : 8 * k + 8 ≤ (encrypt pt pw).length) :
    blockAt (encrypt pt pw) k = forward (blockAt (addPadding pt) k) (generateSBoxSet (deriveKey pw)) := by
  rw [encrypt_length] at hk
  rw [encrypt_eq, blockAt_mapBlocks _ _ k hk]

/-- The padded plaintext inside `Decrypt`: every block transformed back, the padding not yet stripped (R224). -/
def paddedPlaintext (ct pw : List Byte) : List Byte :=
  mapBlocks (fun b => inverse b (generateSBoxSet (deriveKey pw))) ct

/-- `Decrypt` strips the padding from the padded plaintext (R224). -/
theorem decrypt_eq (ct pw : List Byte) : decrypt ct pw =
    ((paddedPlaintext ct pw).take (removePaddingLen (paddedPlaintext ct pw)).1,
      (removePaddingLen (paddedPlaintext ct pw)).2) := rfl

theorem paddedPlaintext_length {ct : List Byte} (hmod : ct.length % 8 = 0) (pw : List Byte) :
    (paddedPlaintext ct pw).length = ct.length := by
  rw [paddedPlaintext, mapBlocks_length]; omega

theorem blockAt_paddedPlaintext {ct : List Byte} (pw : List Byte) {k : Nat} (hk : 8 * k + 8 ≤ ct.length) :
    blockAt (paddedPlaintext ct pw) k = inverse (blockAt ct k) (generateSBoxSet (deriveKey pw)) :=
  blockAt_mapBlocks _ ct k hk

/-- Transforming a ciphertext back gives the padded plaintext it was made from (R185). -/
theorem paddedPlaintext_encrypt (pt pw : List Byte) : paddedPlaintext (encrypt pt pw) pw = addPadding pt := by
  have hmod : (addPadding pt).length % 8 = 0 := by rw [addPadding_length]; omega
  rw [encrypt_eq, paddedPlaintext, mapBlocks_mapBlocks_cancel (fun b => inverse_forward b _) hmod]

/-- `Decrypt(Encrypt(pt, pw), pw) = (pt, no warning)` (R225). -/
theorem decrypt_encrypt (pt pw : List Byte) : decrypt (encrypt pt pw) pw = (pt, false) := by
  rw [decrypt_eq, paddedPlaintext_encrypt, removePaddingLen_addPadding, take_addPadding]

/-! ### Strings and stores in MEM (R65, R67) -/

theorem scanZ_of_stringAt {m : Mem} {a : Word} {bs : List Byte} (h : stringAt m a bs) :
    scanZ m a.toNat = .ok bs := by
  obtain ⟨hlen, hbytes, hzero⟩ := h
  exact scanZ_ok hlen hbytes hzero

/-- A store of bytes that lie in MEM or are none puts them there and changes no other byte. -/
theorem storedAt_memWrite_of_inside {m : Mem} {a : Word} {bs : List Byte} (h : inside m a bs.length) :
    storedAt m (memWrite m a.toNat bs) a bs := by
  rcases h with hnil | hroom
  · obtain rfl := List.eq_nil_of_length_eq_zero hnil
    exact ⟨rfl, fun i hi => absurd hi (Nat.not_lt_zero i), fun _ _ => rfl⟩
  · exact storedAt_memWrite hroom

/-- A range that lies in MEM lies there after a store: the size stays. -/
theorem inside_of_storedAt {m m' : Mem} {a p : Word} {bs : List Byte} {n : Nat} (hst : storedAt m m' a bs)
    (h : inside m p n) : inside m' p n := by
  obtain ⟨hsize, -, -⟩ := hst
  rwa [inside, hsize]

/-- A string outside the stored range, its terminator included, is there after the store. -/
theorem stringAt_of_storedAt {m m' : Mem} {a p : Word} {bs str : List Byte} (hst : storedAt m m' a bs)
    (hout : p.toNat + str.length < a.toNat ∨ a.toNat + bs.length ≤ p.toNat) (h : stringAt m p str) :
    stringAt m' p str := by
  obtain ⟨hsize, -, hframe⟩ := hst
  obtain ⟨hlen, hbytes, hzero⟩ := h
  refine ⟨hsize ▸ hlen, fun i hi => ?_, ?_⟩
  · rw [hframe _ (by omega)]
    exact hbytes i hi
  · rw [hframe _ (by omega)]
    exact hzero

/-! ### The two completions of ENC and DEC (R222, R254, R255) -/

/-- A MEMX of ENC or DEC zeroises KEY and SBOX and records the lowest absent address. -/
theorem exec_eq_failed_wiped_memx {i : Instr} {s : State} {a : Word} (hbase : errorBase i s = s.zeroised)
    (he : effect i s = .error (.memx (s.mem.firstAbsent a.toNat))) :
    exec i s = .next (failed (wiped s) .memx (absentFrom s.mem a)) := by
  rw [exec_of_error he, hbase, absentFrom, ← firstAbsent_ofNat]
  rfl

/-- A command that zeroises and stores completes with its bytes in MEM and its results. -/
theorem exec_eq_completed_wiped_store {i : Instr} {s : State} {a outlen : Nat} {bs : List Byte} {padw : Bool}
    (he : effect i s = .ok
      { (Effect.none s).zeroised with storeAddr := a, storeBytes := bs, outlen := outlen, padw := padw }) :
    exec i s = .next (completed { wiped s with mem := memWrite s.mem a bs } outlen padw) :=
  exec_of_ok he

/-! ### ENC (R221) -/

section Enc
variable {s : State} {pt pw : List Byte}

theorem effectEnc_error_src (h : noTerminator s.mem s.src) :
    effectEnc s = .error (.memx (s.mem.firstAbsent s.src.toNat)) :=
  except_bind_eq_error.mpr (.inl (scanZ_error h))

theorem effectEnc_error_pwa (hpt : stringAt s.mem s.src pt) (h : noTerminator s.mem s.pwa) :
    effectEnc s = .error (.memx (s.mem.firstAbsent s.pwa.toNat)) :=
  except_bind_eq_error.mpr <| .inr ⟨pt, scanZ_of_stringAt hpt, except_bind_eq_error.mpr (.inl (scanZ_error h))⟩

theorem effectEnc_error_dst (hpt : stringAt s.mem s.src pt) (hpw : stringAt s.mem s.pwa pw)
    (h : ¬ inside s.mem s.dst (pt.length + padLen pt.length)) :
    effectEnc s = .error (.memx (s.mem.firstAbsent s.dst.toNat)) :=
  except_bind_eq_error.mpr <| .inr ⟨pt, scanZ_of_stringAt hpt, except_bind_eq_error.mpr <| .inr
    ⟨pw, scanZ_of_stringAt hpw, except_bind_eq_error.mpr (.inl (checkRange_error h))⟩⟩

/-- With both strings terminated and room for the ciphertext, ENC stores it, reports its length and zeroises. -/
theorem exec_enc_stores (hpt : stringAt s.mem s.src pt) (hpw : stringAt s.mem s.pwa pw)
    (hdst : inside s.mem s.dst (pt.length + padLen pt.length)) :
    ∃ m', exec .enc s = .next (completed { wiped s with mem := m' } (pt.length + padLen pt.length) false) ∧
      storedAt s.mem m' s.dst (encrypt pt pw) := by
  have hpos := (padLen_bounds pt.length).1
  have hroom : s.dst.toNat + (pt.length + padLen pt.length) ≤ s.mem.size := hdst.resolve_left (by omega)
  have he : effect .enc s = .ok
      { (Effect.none s).zeroised with
        storeAddr := s.dst.toNat
        storeBytes := encrypt pt pw
        outlen := pt.length + padLen pt.length } :=
    effectEnc_ok.mpr ⟨pt, pw, scanZ_of_stringAt hpt, scanZ_of_stringAt hpw, hroom, rfl⟩
  exact ⟨_, exec_eq_completed_wiped_store he, storedAt_memWrite (by rwa [encrypt_length_eq_add])⟩

end Enc

/-! ### DEC (R223) -/

section Dec
variable {s : State} {pw ct : List Byte}

theorem effectDec_error_length (h : s.len.toNat = 0 ∨ s.len.toNat % 8 ≠ 0) : effectDec s = .error .badlen :=
  except_bind_eq_error.mpr (.inl (needBlocks_error.mpr ⟨h, rfl⟩))

variable (hne : s.len.toNat ≠ 0) (hmod : s.len.toNat % 8 = 0)
include hne hmod

theorem effectDec_error_pwa (h : noTerminator s.mem s.pwa) :
    effectDec s = .error (.memx (s.mem.firstAbsent s.pwa.toNat)) :=
  except_bind_eq_error.mpr <| .inr
    ⟨(), needBlocks_ok.mpr ⟨hne, hmod⟩, except_bind_eq_error.mpr (.inl (scanZ_error h))⟩

theorem effectDec_error_src (hpw : stringAt s.mem s.pwa pw) (h : ¬ inside s.mem s.src s.len.toNat) :
    effectDec s = .error (.memx (s.mem.firstAbsent s.src.toNat)) :=
  except_bind_eq_error.mpr <| .inr ⟨(), needBlocks_ok.mpr ⟨hne, hmod⟩, except_bind_eq_error.mpr <| .inr
    ⟨pw, scanZ_of_stringAt hpw, except_bind_eq_error.mpr (.inl (checkRange_error h))⟩⟩

variable (hpw : stringAt s.mem s.pwa pw) (hsrc : inside s.mem s.src s.len.toNat)
  (hlen : ct.length = s.len.toNat) (hbytes : bytesLieAt s.mem s.src ct)
include hpw hsrc hlen hbytes

theorem effectDec_error_dst (h : ¬ inside s.mem s.dst (decrypt ct pw).1.length) :
    effectDec s = .error (.memx (s.mem.firstAbsent s.dst.toNat)) := by
  have hread : memRead s.mem s.src.toNat s.len.toNat = ct := hlen ▸ memRead_eq_of_bytes hbytes
  rw [← hread] at h
  exact except_bind_eq_error.mpr <| .inr ⟨(), needBlocks_ok.mpr ⟨hne, hmod⟩, except_bind_eq_error.mpr <| .inr
    ⟨pw, scanZ_of_stringAt hpw, except_bind_eq_error.mpr <| .inr
      ⟨(), checkRange_ok hsrc, except_bind_eq_error.mpr (.inl (checkRange_error h))⟩⟩⟩

/-- With whole blocks and a terminated password in MEM and room for the plaintext, DEC stores exactly that, reports its
length and the warning, and zeroises. -/
theorem exec_dec_stores (hdst : inside s.mem s.dst (decrypt ct pw).1.length) :
    ∃ m', exec .dec s =
        .next (completed { wiped s with mem := m' } (decrypt ct pw).1.length (decrypt ct pw).2) ∧
      storedAt s.mem m' s.dst (decrypt ct pw).1 := by
  have hread : memRead s.mem s.src.toNat s.len.toNat = ct := hlen ▸ memRead_eq_of_bytes hbytes
  have he : effect .dec s = .ok
      { (Effect.none s).zeroised with
        storeAddr := s.dst.toNat
        storeBytes := (decrypt ct pw).1
        outlen := (decrypt ct pw).1.length
        padw := (decrypt ct pw).2 } :=
    effectDec_ok.mpr ⟨hne, hmod, pw, scanZ_of_stringAt hpw, hsrc.resolve_left hne, by
      rw [hread]; exact ⟨hdst, rfl⟩⟩
  exact ⟨_, exec_eq_completed_wiped_store he, storedAt_memWrite_of_inside hdst⟩

end Dec

/-- On the ciphertext of `pt` under the password DEC reads, DEC stores `pt` and gives no warning (R225). -/
theorem exec_dec_encrypt {s : State} {pt pw : List Byte} (hpw : stringAt s.mem s.pwa pw)
    (hlen : (encrypt pt pw).length = s.len.toNat) (hsrc : inside s.mem s.src (encrypt pt pw).length)
    (hbytes : bytesLieAt s.mem s.src (encrypt pt pw)) (hdst : inside s.mem s.dst pt.length) :
    ∃ m', exec .dec s = .next (completed { wiped s with mem := m' } pt.length false) ∧
      storedAt s.mem m' s.dst pt := by
  have hblocks : s.len.toNat = 8 * (pt.length / 8) + 8 := by rw [← hlen, encrypt_length, addPadding_length]
  simpa only [decrypt_encrypt] using
    exec_dec_stores (by omega) (by omega) hpw (hlen ▸ hsrc) hlen hbytes (by rwa [decrypt_encrypt])

/-! ### OUTLEN as the next command's LEN (R30, R254) -/

/-- A range that lies in MEM has a size that fits in 32 bits (R6). -/
theorem length_lt_of_inside {m : Mem} {a : Word} {n : Nat} (hm : m.Legal) (h : inside m a n) : n < 2 ^ 32 := by
  have hsize := hm.size_le
  rcases h with hnil | hroom <;> omega

theorem completed_outlen_toNat {n : Nat} (h : n < 2 ^ 32) (s : State) (padw : Bool) :
    (completed s n padw).outlen.toNat = n := by
  rw [completed, BitVec.toNat_ofNat, Nat.mod_eq_of_lt h]

end Sys2Proof.Machine

namespace Sys2Proof.Proofs
open Sys2Proof.Machine Sys2Proof.Claims

/-- Settles O23: by what the two scans and the range check at DST answer. -/
theorem encEncryptsAndZeroises : Obligations.EncEncryptsAndZeroises := by
  refine ⟨rfl, fun s => ⟨fun hsrc => ?_, fun pt hpt hpwa => ?_, fun pt pw hpt hpw hdst => ?_,
    fun pt pw hpt hpw hdst => ?_⟩⟩
  · exact exec_eq_failed_wiped_memx (i := .enc) rfl (effectEnc_error_src hsrc)
  · exact exec_eq_failed_wiped_memx (i := .enc) rfl (effectEnc_error_pwa hpt hpwa)
  · exact exec_eq_failed_wiped_memx (i := .enc) rfl (effectEnc_error_dst hpt hpw hdst)
  · obtain ⟨m', hexec, hstored⟩ := exec_enc_stores hpt hpw hdst
    exact ⟨m', hexec, encrypt_length_eq_add pt pw, hstored⟩

/-- Settles O24: by the checks in their order; when all pass, the plaintext of the bytes at SRC is stored. -/
theorem decDecryptsAndZeroises : Obligations.DecDecryptsAndZeroises := by
  refine ⟨rfl, ?_⟩
  rintro s _ rfl
  refine ⟨fun hbad => ?_, fun hne hmod hpwa => ?_, fun pw hne hmod hpw hsrc => ?_,
    fun pw ct hne hmod hpw hsrc hlen hbytes hdst => ?_, fun pw ct hne hmod hpw hsrc hlen hbytes hdst => ?_⟩
  · exact exec_of_error (i := .dec) (effectDec_error_length hbad)
  · exact exec_eq_failed_wiped_memx (i := .dec) rfl (effectDec_error_pwa hne hmod hpwa)
  · exact exec_eq_failed_wiped_memx (i := .dec) rfl (effectDec_error_src hne hmod hpw hsrc)
  · exact exec_eq_failed_wiped_memx (i := .dec) rfl (effectDec_error_dst hne hmod hpw hsrc hlen hbytes hdst)
  · obtain ⟨m', hexec, hstored⟩ := exec_dec_stores hne hmod hpw hsrc hlen hbytes hdst
    obtain ⟨hle, hge⟩ := decrypt_length ct pw (hlen ▸ hmod)
    exact ⟨m', hexec, by omega, by omega, hstored⟩

/-- Settles O55: `encrypt` maps the blocks of the padded plaintext, each through the same function. -/
theorem encryptTransformsEachBlockAlone : Obligations.EncryptTransformsEachBlockAlone := by
  intro pt pw
  refine ⟨encrypt_length pt pw, fun k hk => ⟨blockAt_encrypt hk, fun j hj heq => ?_⟩⟩
  rw [blockAt_encrypt hj, blockAt_encrypt hk, heq]

/-- Settles O56: `inverse` undoes `forward` block by block, and unpadding undoes padding. -/
theorem decryptUndoesEncrypt : Obligations.DecryptUndoesEncrypt := decrypt_encrypt

/-- Settles O57: the ciphertext ENC stored and the untouched password are what DEC reads. -/
theorem encThenDecRestoresThePlaintext : Obligations.EncThenDecRestoresThePlaintext := by
  intro s t pt pw d hlegal hpt hpw hroom hd hout henc
  have hsum : pt.length + padLen pt.length = (encrypt pt pw).length := (encrypt_length_eq_add pt pw).symm
  obtain ⟨m, hexec, hct⟩ := exec_enc_stores hpt hpw hroom
  rw [hsum] at hexec
  obtain rfl := Host.Outcome.next.inj (henc.symm.trans hexec)
  have hsrc : inside s.mem s.dst (encrypt pt pw).length := hsum ▸ hroom
  have hpw' : stringAt m s.pwa pw := stringAt_of_storedAt hct (hsum ▸ hout) hpw
  have hlen := completed_outlen_toNat (length_lt_of_inside hlegal hsrc) { wiped s with mem := m } false
  have ⟨_, hbytes, _⟩ := hct
  obtain ⟨m', hdec, -, hplain, hframe⟩ := exec_dec_encrypt
    (s := { completed { wiped s with mem := m } (encrypt pt pw).length false with src := s.dst, len := _, dst := d })
    hpw' hlen.symm (inside_of_storedAt hct hsrc) hbytes (inside_of_storedAt hct hd)
  exact ⟨_, hdec, rfl, rfl, completed_outlen_toNat (length_lt_of_inside hlegal hd) _ _, hplain, hframe⟩

/-- Settles O60: the padded plaintext is the ciphertext transformed back; its last byte gives the candidate. -/
theorem decryptTransformsEachBlockAndStripsThePadding :
    Obligations.DecryptTransformsEachBlockAndStripsThePadding := by
  intro ct pw _ hmod
  have hlen := paddedPlaintext_length hmod pw
  refine ⟨paddedPlaintext ct pw, _, hlen, rfl, fun k => blockAt_paddedPlaintext pw, fun hc => ?_, fun hc => ?_⟩
  · rw [decrypt_eq, removePaddingLen_of_gt hc, List.take_length]
  · rw [decrypt_eq, removePaddingLen_of_le hc, hlen]

/-- Settles O11: NOP's effect is none. -/
theorem nopOnlyCompletes : Obligations.NopOnlyCompletes :=
  ⟨rfl, fun s => exec_eq_completed (effect_nop s)⟩

/-- Settles O25: ZERO's effect is the zeroisation alone. -/
theorem zeroClearsKeyAndTables : Obligations.ZeroClearsKeyAndTables :=
  ⟨rfl, fun s => exec_eq_completed (effect_zero s)⟩

end Sys2Proof.Proofs

/-! SUPPORT. Proofs of the statements of spec/60_exceptions.md: which errors a command raises and what an error completion
records, the interrupt output, and the engine after a completion. The lemmas come first, by the operation they speak of;
each settled statement cites them. -/

namespace Sys2Proof.Machine
open Sys2Proof.Claims

/-! ### Which errors a command raises (R250) -/

/-- Every error `x` raises is one R250's table lets the command `i` raise. -/
def RaisesAllowed {α : Type} (i : Instr) (x : Except CmdError α) : Prop :=
  ∀ err, x = .error err → raises err.code i

section RaisesAllowed
variable {α β : Type} {i : Instr} {s : State}

theorem raisesAllowed_ok (x : α) : RaisesAllowed i (.ok x) := by
  intro err h; cases h

theorem RaisesAllowed.bind {x : Except CmdError α} {f : α → Except CmdError β}
    (hx : RaisesAllowed i x) (hf : ∀ a, RaisesAllowed i (f a)) : RaisesAllowed i (x >>= f) := by
  intro err h
  rcases except_bind_eq_error.mp h with h | ⟨a, -, h⟩
  · exact hx err h
  · exact hf a err h

theorem raisesAllowed_checkRange (hi : raises .memx i) (m : Mem) (a n : Nat) :
    RaisesAllowed i (checkRange m a n) := by
  intro err h
  obtain ⟨-, rfl⟩ := checkRange_error_iff.mp h
  exact hi

theorem raisesAllowed_scanZ (hi : raises .memx i) (m : Mem) (a : Nat) : RaisesAllowed i (scanZ m a) := by
  intro err h
  obtain ⟨-, rfl⟩ := scanZ_error_iff.mp h
  exact hi

theorem raisesAllowed_needKey (hi : raises .nokey i) : RaisesAllowed i (needKey s) := by
  intro err h
  obtain ⟨-, rfl⟩ := needKey_error.mp h
  exact hi

theorem raisesAllowed_needTables (hi : raises .nosbox i) : RaisesAllowed i (needTables s) := by
  intro err h
  obtain ⟨-, rfl⟩ := needTables_error.mp h
  exact hi

theorem raisesAllowed_needBlocks (hi : raises .badlen i) (n : Nat) : RaisesAllowed i (needBlocks n) := by
  intro err h
  obtain ⟨-, rfl⟩ := needBlocks_error.mp h
  exact hi

theorem raisesAllowed_block (htables : raises .nosbox i) (hmemx : raises .memx i) (f : Block → SBoxSet → Block) :
    RaisesAllowed i (effectBlock f s) :=
  (raisesAllowed_needTables htables).bind fun _ => (raisesAllowed_checkRange hmemx _ _ 8).bind fun _ =>
    (raisesAllowed_checkRange hmemx _ _ 8).bind fun _ => raisesAllowed_ok _

end RaisesAllowed

/-- Every command raises only the errors R250 names it for: each effect is a sequence of checks, and each check of a
command has one error code. -/
theorem effect_raisesAllowed (i : Instr) (s : State) : RaisesAllowed i (effect i s) := by
  have memx (h : i ≠ .nop ∧ i ≠ .sbgen ∧ i ≠ .zero) : raises .memx i := h
  cases i with
  | nop => exact raisesAllowed_ok _
  | zero => exact raisesAllowed_ok _
  | sbgen => exact (raisesAllowed_needKey rfl).bind fun _ => raisesAllowed_ok _
  | kdf => exact (raisesAllowed_scanZ (memx (by decide)) _ _).bind fun _ => raisesAllowed_ok _
  | gensb => exact (raisesAllowed_scanZ (memx (by decide)) _ _).bind fun _ => raisesAllowed_ok _
  | ldkey => exact (raisesAllowed_checkRange (memx (by decide)) _ _ _).bind fun _ => raisesAllowed_ok _
  | ldsb => exact (raisesAllowed_checkRange (memx (by decide)) _ _ _).bind fun _ => raisesAllowed_ok _
  | stsb =>
    exact (raisesAllowed_needTables (.inl rfl)).bind fun _ =>
      (raisesAllowed_checkRange (memx (by decide)) _ _ _).bind fun _ => raisesAllowed_ok _
  | rndf rnd =>
    have hm := memx ⟨nofun, nofun, nofun⟩
    exact (raisesAllowed_needTables (.inr (.inl ⟨rnd, rfl⟩))).bind fun _ =>
      (raisesAllowed_checkRange hm _ _ 4).bind fun _ => (raisesAllowed_checkRange hm _ _ 4).bind fun _ =>
        raisesAllowed_ok _
  | fwd => exact raisesAllowed_block (.inr (.inr (.inl rfl))) (memx (by decide)) forward
  | inv => exact raisesAllowed_block (.inr (.inr (.inr rfl))) (memx (by decide)) inverse
  | pad =>
    have hm := memx (by decide)
    exact (raisesAllowed_checkRange hm _ _ _).bind fun _ => (raisesAllowed_checkRange hm _ _ _).bind fun _ =>
      raisesAllowed_ok _
  | unpad =>
    exact (raisesAllowed_needBlocks (.inl rfl) _).bind fun _ =>
      (raisesAllowed_checkRange (memx (by decide)) _ _ _).bind fun _ => raisesAllowed_ok _
  | enc =>
    have hm := memx (by decide)
    exact (raisesAllowed_scanZ hm _ _).bind fun _ => (raisesAllowed_scanZ hm _ _).bind fun _ =>
      (raisesAllowed_checkRange hm _ _ _).bind fun _ => raisesAllowed_ok _
  | dec =>
    have hm := memx (by decide)
    exact (raisesAllowed_needBlocks (.inr rfl) _).bind fun _ => (raisesAllowed_scanZ hm _ _).bind fun _ =>
      (raisesAllowed_checkRange hm _ _ _).bind fun _ => (raisesAllowed_checkRange hm _ _ _).bind fun _ =>
        raisesAllowed_ok _

/-! ### What an error completion records (R255, R31) -/

/-- Only MEMX records an address. -/
theorem addr_eq_zero {err : CmdError} (h : err.code ≠ .memx) : err.addr = 0 := by
  cases err with
  | memx bad => exact absurd rfl h
  | illcmd | nokey | nosbox | badlen => rfl

theorem eq_memx_of_code {err : CmdError} (h : err.code = .memx) : ∃ bad, err = .memx bad := by
  cases err with
  | memx bad => exact ⟨bad, rfl⟩
  | illcmd | nokey | nosbox | badlen => cases h

/-- The arrays an error completion keeps, in the words of the statements (R222). -/
theorem errorBase_eq (i : Instr) (s : State) : errorBase i s = if zeroisesOnError i then wiped s else s := by
  cases i <;> rfl

/-- A MEMX records the lowest absent address from an operand on, which names no byte over a legal memory (R31, R66). -/
theorem effect_memx_addr {i : Instr} {s : State} {err : CmdError} (hm : s.mem.Legal)
    (he : effect i s = .error err) (hcode : err.code = .memx) :
    ∃ a, (a = s.src ∨ a = s.dst ∨ a = s.pwa) ∧ err.addr = absentFrom s.mem a ∧ s.mem.size ≤ err.addr.toNat := by
  obtain ⟨bad, rfl⟩ := eq_memx_of_code hcode
  obtain ⟨a, ha, rfl⟩ := effect_memxFromOperand i s bad he
  exact ⟨a, ha, firstAbsent_ofNat s.mem a, size_le_firstAbsent_word hm a⟩

/-! ### The engine's turn completes any word (R259) -/

/-- With a command in flight, legal or not, the engine's turn leaves it idle with DONE set, and leaves IE and the
agenda. -/
theorem engineTurn_completes {s : State} (hb : s.busy = true) : ∃ t, engineTurn s = .next t ∧
    t.busy = false ∧ t.done = true ∧ t.ie = s.ie ∧ t.agenda = s.agenda := by
  cases hd : decode s.cmd with
  | ok i =>
    obtain ⟨hbusy, hdone⟩ := outcomeOf_busy_done i s
    have hframe := outcomeOf_sameFrame i s
    exact ⟨_, (engineTurn_command hb hd).trans (exec_eq_next i s), hbusy, hdone, hframe.ie, hframe.agenda⟩
  | error e => exact ⟨_, engineTurn_illegal hb hd, rfl, rfl, rfl, rfl⟩

/-- A write to CMD while idle is accepted (R26). -/
theorem hostAct_wrCmd_idle {s : State} (hb : s.busy = false) (v : Word) :
    hostAct (.wr 0x00 v) s = .next (accept s v) := by
  rw [hostAct_wr (by decide)]
  exact congrArg _ (writeCmd_idle hb v)

/-! ### The interrupt output (R262) -/

theorem irq_of_done_eq_false {s : State} (h : s.done = false) : irq s = false := by simp [irq, h]

theorem irq_of_ie_eq_false {s : State} (h : s.ie = false) : irq s = false := by simp [irq, h]

/-- The interrupt output in the bits of the registers: STATUS bit 1 and CTRL bit 0. -/
theorem irq_eq_register_bits (s : State) : irq s = ((readReg s 0x04).getLsbD 1 && (readReg s 0x08).getLsbD 0) := by
  obtain ⟨-, hdone, -⟩ := statusWord_low s
  have hie : (ctrlWord s).getLsbD 0 = s.ie := ctrlWord_getLsbD s 0
  show (s.done && s.ie) = ((statusWord s).getLsbD 1 && (ctrlWord s).getLsbD 0)
  rw [hdone, hie]

end Sys2Proof.Machine

namespace Sys2Proof.Proofs
open Sys2Proof.Machine Sys2Proof.Claims

/-- Settles O9: the engine's turn completes any word, and leaves the engine idle. -/
theorem everyAcceptedWordCompletesAndTheEngineIsUsable :
    Obligations.EveryAcceptedWordCompletesAndTheEngineIsUsable := by
  intro s rest hmoves hb
  obtain ⟨t, ht, hbusy, hdone, -, hagenda⟩ := engineTurn_completes (s := { s with agenda := rest }) hb
  exact ⟨t, (step_of_engineMoves hmoves).trans ht, hbusy, hdone, hagenda, hostAct_wrCmd_idle hbusy⟩

/-- Settles O29: an error completion is `failed` on the state whose arrays it keeps. -/
theorem errorCompletionChangesOnlyItsLines : Obligations.ErrorCompletionChangesOnlyItsLines := by
  intro i s t ht hne
  rcases exec_cases ht with ⟨e, -, rfl⟩ | ⟨err, -, rfl⟩
  · exact absurd rfl hne
  · exact ⟨by rw [← errorBase_eq]; rfl, addr_eq_zero⟩

/-- Settles O30: a normal completion records no error, an error completion the one its effect raises. -/
theorem errorsAreRaisedAsTheTableSays : Obligations.ErrorsAreRaisedAsTheTableSays := by
  intro i s t hm ht
  rcases exec_cases ht with ⟨e, -, rfl⟩ | ⟨err, he, rfl⟩
  · exact ⟨trivial, fun _ => rfl, fun hmemx => by cases hmemx⟩
  · exact ⟨effect_raisesAllowed i s err he, addr_eq_zero, effect_memx_addr hm he⟩

/-- Settles O40: `irq` is DONE and IE; a completion sets DONE and keeps IE, and each of the host's writes clears one of
the two. -/
theorem interruptFollowsDoneAndEnable : Obligations.InterruptFollowsDoneAndEnable := by
  refine ⟨irq_eq_register_bits, fun s t rest hmoves hb ht => ?_, fun s t v hb ht => ?_, fun s t ht => ?_,
    fun s t v hv ht => ?_, fun _ _ => rfl⟩
  · obtain ⟨t', ht', -, hdone, hie, -⟩ := engineTurn_completes (s := { s with agenda := rest }) hb
    rw [step_of_engineMoves hmoves, ht'] at ht
    cases ht
    rw [irq, hdone, hie, Bool.true_and]
  · rw [hostAct_wrCmd_idle hb] at ht
    cases ht
    exact irq_of_done_eq_false rfl
  · rw [hostAct_wr (by decide)] at ht
    cases ht
    exact irq_of_done_eq_false (Bool.and_false s.done)
  · rw [hostAct_wr (by decide)] at ht
    cases ht
    exact irq_of_ie_eq_false hv

/-- Settles O8: an idle engine's turn is no change. -/
theorem idleEngineKeepsItsState : Obligations.IdleEngineKeepsItsState := by
  intro s rest hmoves hb
  rw [step_of_engineMoves hmoves]
  exact engineTurn_idle (s := { s with agenda := rest }) hb

end Sys2Proof.Proofs

/-! SUPPORT. Proofs of the statements of spec/70_reset_and_hazards.md: what the reset input leaves of MEM. The lemmas
come first, by the operation they speak of; the settled statement cites them. -/

namespace Sys2Proof.Machine

/-! ### The write footprint of the command in flight (R72, R291) -/

@[simp] theorem freshBytes_length (count n : Nat) : (freshBytes count n).length = n := by simp [freshBytes]

theorem pendingRange_of_command {s : State} {i : Instr} (hb : s.busy = true) (hd : decode s.cmd = .ok i) :
    pendingRange s = writeRange i s := by simp only [pendingRange, hd, hb, if_true]

theorem pendingRange_of_idle {s : State} (hb : s.busy = false) : pendingRange s = ⟨0, 0⟩ := by
  cases hd : decode s.cmd <;> simp [pendingRange, hd, hb]

theorem pendingRange_of_illegal {s : State} {e : Reject} (hd : decode s.cmd = .error e) :
    pendingRange s = ⟨0, 0⟩ := by simp only [pendingRange, hd]

/-- Where a command stores does not depend on what the host can change while it is in flight. -/
theorem writeRange_disturbed {s s' : State} (h : Disturbed s s') (i : Instr) : writeRange i s' = writeRange i s := by
  simp only [writeRange, effect_disturbed h]

theorem pendingRange_disturbed {s s' : State} (h : Disturbed s s') : pendingRange s' = pendingRange s := by
  simp only [pendingRange, writeRange_disturbed h, h.busy, h.cmd]

/-- A footprint that is not empty is at DST (R72). -/
theorem at_dst_of_writeRange_has {i : Instr} {s : State} {x : Nat} (hx : (writeRange i s).has x) :
    s.dst.toNat ≤ x ∧ x < s.dst.toNat + (writeRange i s).count := by
  have hcount : (writeRange i s).count ≠ 0 := fun h => Range.not_has_of_count_zero h x hx
  rwa [Range.has, writeRange_start i s hcount] at hx

/-- The pending footprint lies in the footprint at DST of the command in CMD, busy or not. -/
theorem at_dst_of_pendingRange_has {i : Instr} {s : State} (hd : decode s.cmd = .ok i) {x : Nat}
    (hx : (pendingRange s).has x) : s.dst.toNat ≤ x ∧ x < s.dst.toNat + (writeRange i s).count := by
  cases hb : s.busy with
  | true => rw [pendingRange_of_command hb hd] at hx; exact at_dst_of_writeRange_has hx
  | false => rw [pendingRange_of_idle hb] at hx; exact absurd hx (Range.not_has_of_count_zero rfl x)

/-! ### The memory after the reset input (R290, R291) -/

theorem resetEngine_mem_of_empty {s : State} (h : pendingRange s = ⟨0, 0⟩) : (resetEngine s).mem = s.mem := by
  rw [resetEngine_mem, h]; rfl

/-- A reset changes no byte outside the footprint of the command it abandons. -/
theorem resetEngine_byte_outside {s : State} {x : Nat} (hx : ¬ (pendingRange s).has x) :
    (resetEngine s).mem.byte x = s.mem.byte x := by
  rw [resetEngine_mem]
  refine memWrite_byte_outside _ _ _ _ ?_
  rw [freshBytes_length]
  simp only [Range.has] at hx
  omega

end Sys2Proof.Machine

namespace Sys2Proof.Proofs
open Sys2Proof.Machine Sys2Proof.Claims

/-- Settles O42: the reset writes the pending footprint and nothing else; it is empty unless a legal command is in
flight, and then it is that command's, at DST. -/
theorem resetInputAbandonsTheCommand : Obligations.ResetInputAbandonsTheCommand := by
  intro s rest hrst
  refine ⟨_, _, step_of_rst hrst, memWrite_size _ _ _,
    fun hb => resetEngine_mem_of_empty (s := { s with agenda := rest }) (pendingRange_of_idle hb),
    fun e hd => resetEngine_mem_of_empty (s := { s with agenda := rest }) (pendingRange_of_illegal hd),
    fun i x hd hx => resetEngine_byte_outside (s := { s with agenda := rest }) ?_⟩
  rw [pendingRange_disturbed (disturbed_agenda s rest)]
  exact mt (at_dst_of_pendingRange_has hd) hx

end Sys2Proof.Proofs
